-- ==== Sys2Proof/Word.lean ====
section
/-! DEFINITION. The byte, the Pixel and the two agents' names. -/

namespace Sys2Proof

/-- One byte of memory, and one channel of a Pixel: a `u8` of R10. -/
abbrev Byte := BitVec 8

/-- A Pixel is a record of four `u8` fields; two Pixels are equal exactly when all four are (R10). -/
structure Pixel where
  r : Byte
  g : Byte
  b : Byte
  a : Byte
  deriving DecidableEq, Repr, Inhabited

/-- The Pixel shown as one 32-bit number, `r` most significant (R24). For display: no rule depends on it. -/
def Pixel.pack (p : Pixel) : BitVec 32 := p.r ++ p.g ++ p.b ++ p.a

/-- The two agents of the block (R12, R20). -/
inductive Agent where
  | enc
  | dec
  deriving DecidableEq, Repr, Inhabited

/-- The agent that is not `a`. -/
def Agent.other : Agent → Agent
  | .enc => .dec
  | .dec => .enc

end Sys2Proof
end

