-- ==== Sys2Proof/Config.lean ====
section
/-! DEFINITION. The fixed Pixels and byte strings of the format, and the block's free values.

The open parameters of R8 take the values the spec gives them: `NPIX_W` and `LEN_W` are unbounded (the counters are
`Nat`), `MAX_PIXELS` is no limit, and `REGMAP` does not occur because registers are named, not addressed (log 13). -/

namespace Sys2Proof

/-- The value of every cache entry after START (R7, R22). -/
def Config.emptyPixel : Pixel := ⟨0, 0, 0, 0⟩

/-- The previous pixel before the first one (R7, R23). -/
def Config.startPixel : Pixel := ⟨0, 0, 0, 255⟩

/-- The four magic bytes, ASCII `qoif` (R61, R82). -/
def Config.magic : List Byte := [0x71, 0x6F, 0x69, 0x66]

/-- The end marker: seven zero bytes, then one (R83). -/
def Config.marker : List Byte := [0, 0, 0, 0, 0, 0, 0, 1]

/-- FREE VALUE. The byte that an unspecified channel or 8-bit register of agent `a` holds after its `event`-th
unspecified moment (R40, R201; log 3). It has no body: a claim holds whatever it is. -/
opaque Config.freeByte (a : Agent) (event slot : Nat) : Byte

/-- FREE VALUE. The same for a 32-bit register (log 3). -/
opaque Config.freeWord (a : Agent) (event slot : Nat) : BitVec 32

/-- FREE VALUE. The same for a counter, a pointer or a length (log 3). -/
opaque Config.freeNat (a : Agent) (event slot : Nat) : Nat

/-- FREE VALUE. The bytes that the output space of agent `a` holds after its `event`-th unspecified moment, as (address,
byte) pairs in any order: any number of them, anywhere (R69, R201; log 3). `Memory.free` brings them into canonical form. -/
opaque Config.freeCells (a : Agent) (event : Nat) : List (Nat × Byte)

/-- A whole unspecified Pixel, four free bytes (log 3). -/
def Config.freePixel (a : Agent) (event slot : Nat) : Pixel :=
  ⟨Config.freeByte a event (4 * slot), Config.freeByte a event (4 * slot + 1),
   Config.freeByte a event (4 * slot + 2), Config.freeByte a event (4 * slot + 3)⟩

end Sys2Proof
end

