-- ==== Sys2Proof/Syntax.lean ====
section
/-! DEFINITION. The instructions: the six chunks and the two framing items of spec/opcode_table.json. -/

namespace Sys2Proof

/-- One constructor per row of the opcode table. Operands are the fields of R81 and R82 as they are stored, under
R81's names; the biases of R87 to R89 are removed by `Machine/Operands.lean`. -/
inductive Instr where
  /-- RGB: three raw channel bytes (R81, R90). -/
  | rgb (r g b : Byte)
  /-- RGBA: four raw channel bytes (R81, R90). -/
  | rgba (r g b a : Byte)
  /-- INDEX: a cache index (R86). -/
  | index (k : BitVec 6)
  /-- DIFF: three deltas, each biased by +2 (R87). -/
  | diff (fr fg fb : BitVec 2)
  /-- LUMA: the green delta biased by +32, red-minus-green and blue-minus-green biased by +8 (R88). -/
  | luma (fgm : BitVec 6) (frg fbg : BitVec 4)
  /-- RUN: the run length biased by -1, 0 to 61 (R89). -/
  | run (frun : BitVec 6)
  /-- HEADER: what follows the magic (R82). -/
  | header (width height : BitVec 32) (channels colorspace : Byte)
  /-- END: the end marker, all of whose bytes are fixed (R83). -/
  | endMarker
  deriving DecidableEq, Repr, Inhabited

/-- Where in a stream an item stands, which is what tells the framing items from chunks (R80, R83, R164): offset 0,
the chunk region, or after the last pixel. -/
inductive Place where
  | start
  | chunk
  | finish
  deriving DecidableEq, Repr

/-- Where an instruction may stand (R80). -/
def Instr.place : Instr → Place
  | .rgb _ _ _ => .chunk
  | .rgba _ _ _ _ => .chunk
  | .index _ => .chunk
  | .diff _ _ _ => .chunk
  | .luma _ _ _ => .chunk
  | .run _ => .chunk
  | .header _ _ _ _ => .start
  | .endMarker => .finish

/-- Total size in bytes (R81). -/
def Instr.size : Instr → Nat
  | .rgb _ _ _ => 4
  | .rgba _ _ _ _ => 5
  | .index _ => 1
  | .diff _ _ _ => 1
  | .luma _ _ _ => 2
  | .run _ => 1
  | .header _ _ _ _ => 14
  | .endMarker => 8

end Sys2Proof
end

