-- ==== Sys2Proof/WellFormed.lean ====
section
/-! DEFINITION. Which terms of `Instr` an encoding exists for. -/

namespace Sys2Proof

/-- A RUN carries `frun` in 0..61: 62 and 63 are the RGB and RGBA tags (R84, R89). Every payload of every other
kind is legal (R85); a header with a zero size or a wrong channel count is an instruction too, the one that raises
`InvalidHeader` (R162). -/
def Instr.WellFormed : Instr → Bool
  | .rgb _ _ _ => true
  | .rgba _ _ _ _ => true
  | .index _ => true
  | .diff _ _ _ => true
  | .luma _ _ _ => true
  | .run frun => decide (frun.toNat ≤ 61)
  | .header _ _ _ _ => true
  | .endMarker => true

end Sys2Proof
end

