-- ==== Sys2Proof/Decode.lean ====
section
/-! DEFINITION. From bytes to instructions and back (30_encoding.md). -/

namespace Sys2Proof

/-- Why a byte sequence is no instruction at a place of the stream. -/
inductive DecodeError where
  /-- The bytes end before the item does (R161, R165, R177). -/
  | truncated
  /-- The first four bytes are not `qoif` (R162). -/
  | badMagic
  /-- The eight bytes are not the end marker (R177). -/
  | badMarker
  deriving DecidableEq, Repr

/-! ### Fields of bytes -/

/-- `be32`: most significant byte first (R56). -/
def be32 (v : BitVec 32) : List Byte :=
  [v.extractLsb' 24 8, v.extractLsb' 16 8, v.extractLsb' 8 8, v.extractLsb' 0 8]

/-- `ube32`, the inverse of `be32` (R56). -/
def ube32 (b0 b1 b2 b3 : Byte) : BitVec 32 := b0 ++ b1 ++ b2 ++ b3

/-- `t[7:6]`, the 2-bit tag of a first byte (R84). -/
def tag2 (t : Byte) : BitVec 2 := t.extractLsb' 6 2

/-- `t[5:0]`, the 6-bit payload of a first byte (R81). -/
def low6 (t : Byte) : BitVec 6 := t.extractLsb' 0 6

/-! ### The decoder -/

/-- The size of a chunk, known from its first byte alone (R84, R165). -/
def chunkSize (t : Byte) : Nat :=
  if t = 0xFE then 4
  else if t = 0xFF then 5
  else if tag2 t = 0b10 then 2
  else 1

/-- One chunk from the front of `bytes`, and what follows it. The 8-bit tags are tested before the 2-bit tag `11`
(R84, R241); no first byte is illegal (R85). -/
def decodeChunk (bytes : List Byte) : Except DecodeError (Instr × List Byte) :=
  match bytes with
  | [] => .error .truncated
  | t :: rest =>
    if t = 0xFE then
      match rest with
      | r :: g :: b :: rest => .ok (.rgb r g b, rest)
      | _ => .error .truncated
    else if t = 0xFF then
      match rest with
      | r :: g :: b :: a :: rest => .ok (.rgba r g b a, rest)
      | _ => .error .truncated
    else if tag2 t = 0b00 then .ok (.index (low6 t), rest)
    else if tag2 t = 0b01 then
      .ok (.diff (t.extractLsb' 4 2) (t.extractLsb' 2 2) (t.extractLsb' 0 2), rest)
    else if tag2 t = 0b10 then
      match rest with
      | u :: rest => .ok (.luma (low6 t) (u.extractLsb' 4 4) (u.extractLsb' 0 4), rest)
      | _ => .error .truncated
    else .ok (.run (low6 t), rest)

/-- The header from the front of `bytes` (R82): length first, then magic (R161, R162). -/
def decodeHeader (bytes : List Byte) : Except DecodeError (Instr × List Byte) :=
  match bytes with
  | m0 :: m1 :: m2 :: m3 :: w0 :: w1 :: w2 :: w3 :: h0 :: h1 :: h2 :: h3 :: c :: cs :: rest =>
    if [m0, m1, m2, m3] = Config.magic then
      .ok (.header (ube32 w0 w1 w2 w3) (ube32 h0 h1 h2 h3) c cs, rest)
    else .error .badMagic
  | _ => .error .truncated

/-- The end marker from the front of `bytes` (R83, R177). -/
def decodeEnd (bytes : List Byte) : Except DecodeError (Instr × List Byte) :=
  match bytes with
  | b0 :: b1 :: b2 :: b3 :: b4 :: b5 :: b6 :: b7 :: rest =>
    if [b0, b1, b2, b3, b4, b5, b6, b7] = Config.marker then .ok (.endMarker, rest)
    else .error .badMarker
  | _ => .error .truncated

/-- The instruction at the front of `bytes` at a place of the stream, and what follows it. -/
def decode (place : Place) (bytes : List Byte) : Except DecodeError (Instr × List Byte) :=
  match place with
  | .start => decodeHeader bytes
  | .chunk => decodeChunk bytes
  | .finish => decodeEnd bytes

/-! ### The encoder of instructions -/

/-- The bytes of an instruction, from the formats of R81 to R83 and the field assembly of R86 to R90. -/
def encode : Instr → List Byte
  | .rgb r g b => [0xFE, r, g, b]
  | .rgba r g b a => [0xFF, r, g, b, a]
  | .index k => [0b00#2 ++ k]
  | .diff fr fg fb => [0b01#2 ++ fr ++ fg ++ fb]
  | .luma fgm frg fbg => [0b10#2 ++ fgm, frg ++ fbg]
  | .run frun => [0b11#2 ++ frun]
  | .header w h c cs => Config.magic ++ be32 w ++ be32 h ++ [c, cs]
  | .endMarker => Config.marker

/-- The bytes of a sequence of instructions, one after the other (R80). -/
def encodeAll (is : List Instr) : List Byte := is.flatMap encode

/-! ### Words numbered as spec/opcode_table.json numbers them (log 9) -/

/-- The `n` bytes of a number whose least significant byte is the first byte. -/
def wordBytes (n w : Nat) : List Byte := (List.range n).map fun i => BitVec.ofNat 8 (w >>> (8 * i))

/-- The fourteen bytes (the longest item) that a table word stands for. The table's row HEADER numbers its first
four bytes as ONE big-endian word (`fixed` 31..0 = 0x716F6966), and its row END all eight bytes as one
(`match` = 0x0000000000000001), so a word of that form is laid out in big-endian words, as the hardware stores them
(R56); every other word is laid out byte by byte, the first byte in bits 7..0 (log 9). -/
def tableBytes (nbits w : Nat) : List Byte :=
  let v := w % 2 ^ nbits
  if 32 ≤ nbits ∧ v % 2 ^ 32 = 0x716F6966 then
    be32 (BitVec.ofNat 32 v) ++ be32 (BitVec.ofNat 32 (v >>> 32)) ++ be32 (BitVec.ofNat 32 (v >>> 64))
      ++ [BitVec.ofNat 8 (v >>> 96), BitVec.ofNat 8 (v >>> 104)]
  else if nbits = 64 ∧ v = 1 then Config.marker ++ List.replicate 6 0
  else wordBytes 14 v

/-- The place at which a table word is read: HEADER is the only row of four or more bytes that begins with the magic,
END the only one of 64 bits, every other row is a chunk (log 9). -/
def tablePlace (nbits w : Nat) : Place :=
  if 32 ≤ nbits ∧ (tableBytes nbits w).take 4 = Config.magic then .start
  else if nbits = 64 then .finish
  else .chunk

/-- The instruction the decoder reads from a table word; bits above `nbits` are zero. -/
def decodeTableWord (nbits w : Nat) : Option Instr :=
  match decode (tablePlace nbits w) (tableBytes nbits w) with
  | .ok (i, _) => some i
  | .error _ => none

end Sys2Proof
end

