-- ==== Sys2Proof/Machine/State.lean ====
section
/-! DEFINITION. The state of the block (10_state.md), its reset, and the reasons a step can stop. Plain data. -/

namespace Sys2Proof.Machine

/-- `phase`, one per agent (R33). -/
inductive Phase where
  | idle
  | busy
  | done
  | error
  deriving DecidableEq, Repr, Inhabited

/-- The encodings of R33. -/
def Phase.code : Phase → BitVec 2
  | .idle => 0
  | .busy => 1
  | .done => 2
  | .error => 3

/-- `err`, one per agent (R34, R190): the five errors and none. -/
inductive Err where
  | none
  | invalidDimensions
  | invalidChannelCount
  | bufferSizeMismatch
  | invalidHeader
  | truncatedInput
  deriving DecidableEq, Repr, Inhabited

/-- The codes of R34; 6 and 7 are never produced. -/
def Err.code : Err → BitVec 3
  | .none => 0
  | .invalidDimensions => 1
  | .invalidChannelCount => 2
  | .bufferSizeMismatch => 3
  | .invalidHeader => 4
  | .truncatedInput => 5

/-- The Pixel History: the 64-entry cache and the previous pixel, one instance per agent (R20, R22, R23). -/
structure History where
  cache : Vector Pixel 64
  prev : Pixel
  deriving DecidableEq, Repr

/-- A byte space: (address, byte) pairs, addresses strictly rising. An unlisted address has no value (log 2). -/
abbrev Memory := List Host.Cell

/-- The four spaces (R38, R50). -/
inductive Space where
  | encPix
  | encStr
  | decStr
  | decPix
  deriving DecidableEq, Repr

/-- What the host may do to the encoder while it is not BUSY (R67, R130, R232; log 5): load bytes into `ENC.PIX`, or
issue `ENC.START`. -/
inductive EncMove where
  | load (addr : Nat) (bytes : List Byte)
  | start (width height : BitVec 32) (channels colorspace : Byte) (pixlen : Nat)
  deriving DecidableEq, Repr

/-- What the host may do to the decoder while it is not BUSY (R67, R160, R233; log 5): load bytes into `DEC.STR`, or
issue `DEC.START`. -/
inductive DecMove where
  | load (addr : Nat) (bytes : List Byte)
  | start (inlen : Nat)
  deriving DecidableEq, Repr

/-- The encoder's registers and spaces (R22, R23, R26 to R29, R33 to R35, R50). `host` (log 5) and `free` (log 3)
are the model's own. -/
structure Enc where
  phase : Phase
  err : Err
  hist : History
  run : Nat
  pos : Nat
  wp : Nat
  width : BitVec 32
  height : BitVec 32
  channels : Byte
  colorspace : Byte
  pixlen : Nat
  npix : Nat
  outlen : Nat
  pix : Memory
  str : Memory
  host : List EncMove
  free : Nat
  deriving DecidableEq, Repr

/-- The decoder's registers and spaces (R22, R23, R30 to R34, R50). `host` (log 5) and `free` (log 3) are the model's
own. -/
structure Dec where
  phase : Phase
  err : Err
  hist : History
  pc : Nat
  pos : Nat
  width : BitVec 32
  height : BitVec 32
  channels : Byte
  colorspace : Byte
  npix : Nat
  inlen : Nat
  str : Memory
  pix : Memory
  host : List DecMove
  free : Nat
  deriving DecidableEq, Repr

/-- The whole block. `turn`, the agent that moves next, is the model's own (log 6). -/
structure State where
  enc : Enc
  dec : Dec
  turn : Agent
  deriving DecidableEq, Repr

/-- The History's registers right after hardware reset: the spec gives no value (R40); log 1. -/
def History.atReset : History := ⟨Vector.replicate 64 ⟨0, 0, 0, 0⟩, ⟨0, 0, 0, 0⟩⟩

/-- The encoder right after hardware reset: IDLE and no error (R40, R230); every other value is the model's (log 1),
and the spaces list nothing (log 2). -/
def Enc.atReset : Enc :=
  { phase := .idle, err := .none, hist := History.atReset, run := 0, pos := 0, wp := 0, width := 0, height := 0,
    channels := 0, colorspace := 0, pixlen := 0, npix := 0, outlen := 0, pix := [], str := [], host := [], free := 0 }

/-- The decoder right after hardware reset: IDLE and no error (R40, R230); every other value is the model's (log 1),
and the spaces list nothing (log 2). -/
def Dec.atReset : Dec :=
  { phase := .idle, err := .none, hist := History.atReset, pc := 0, pos := 0, width := 0, height := 0, channels := 0,
    colorspace := 0, npix := 0, inlen := 0, str := [], pix := [], host := [], free := 0 }

/-- Hardware reset (R40, R230). -/
def State.reset : State := { enc := Enc.atReset, dec := Dec.atReset, turn := .dec }

/-- Why a step stops the model. None of these is one of the spec's five errors, which are next states (R200). -/
inductive Fault where
  /-- START executed while the agent is BUSY: raised by `execHeader` and `encStart`. The spec calls this stuck (U10).
  Safe: the model stops where it states nothing. `step` never raises it (log 7). -/
  | startWhileBusy (agent : Agent)
  /-- A PIXEL, chunk or FINISH step executed while it is not enabled (R133, R143, R164, R177): raised by the chunk
  meanings, `execEndMarker`, `encPixel` and `encFinish`. Safe; `step` never raises it (log 7). -/
  | notEnabled (agent : Agent)
  /-- A read of a byte that nothing has written (U3): raised by the fetch and by `encPixel`. Safe (log 2). -/
  | unwrittenByte (space : Space) (addr : Nat)
  deriving DecidableEq, Repr

/-- Why the model has no meaning for an instruction. -/
inductive Refusal where
  /-- The instruction has no meaning yet. No arm of `exec` raises it. Safe. -/
  | notModelled (mnemonic : String)
  deriving DecidableEq, Repr

end Sys2Proof.Machine
end

