-- ==== Sys2Proof/Machine/Operands.lean ====
section
/-! DEFINITION. The arithmetic of the block (40_history.md) and the values that operand fields stand for
(30_encoding.md part 4). -/

namespace Sys2Proof.Machine

/-! ### Primitives -/

/-- `wrap8(x)`: `x mod 256`, floor modulus (R11). -/
def wrap8 (x : Int) : Byte := BitVec.ofInt 8 x

/-- `s8(u)`: `u` when `u < 128` and `u - 256` otherwise (R11). -/
def s8 (u : Byte) : Int := if u.toNat < 128 then u.toNat else (u.toNat : Int) - 256

/-- `sdelta(c, p)`: the signed difference modulo 256 (R113). -/
def sdelta (c p : Byte) : Int := s8 (wrap8 ((c.toNat : Int) - p.toNat))

/-- `uadd(p, d)`: the sum modulo 256 (R114). -/
def uadd (p : Byte) (d : Int) : Byte := wrap8 (p.toNat + d)

/-- `hash(P)`, an index in 0..63: all four channels, multipliers 3, 5, 7, 11 (R110, R242). -/
def hash (p : Pixel) : BitVec 6 :=
  BitVec.ofNat 6 (p.r.toNat * 3 + p.g.toNat * 5 + p.b.toNat * 7 + p.a.toNat * 11)

/-! ### Biased fields -/

/-- The delta a 2-bit DIFF field stores, in [-2, 1] (R87). -/
def diffDelta (f : BitVec 2) : Int := (f.toNat : Int) - 2

/-- The 2-bit DIFF field of a delta in [-2, 1] (R87). -/
def diffField (d : Int) : BitVec 2 := BitVec.ofInt 2 (d + 2)

/-- The green delta a LUMA chunk stores, in [-32, 31] (R88). -/
def lumaGreen (f : BitVec 6) : Int := (f.toNat : Int) - 32

/-- The 6-bit field of a green delta in [-32, 31] (R88). -/
def lumaGreenField (dg : Int) : BitVec 6 := BitVec.ofInt 6 (dg + 32)

/-- The difference to green that a LUMA nibble stores, in [-8, 7] (R88). -/
def lumaRel (f : BitVec 4) : Int := (f.toNat : Int) - 8

/-- The nibble of a difference to green in [-8, 7] (R88). -/
def lumaRelField (d : Int) : BitVec 4 := BitVec.ofInt 4 (d + 8)

/-- The run length `n = frun + 1` (R89). -/
def runLength (frun : BitVec 6) : Nat := frun.toNat + 1

/-- The field of a run of `n` pixels, `n` in 1..62 (R89). -/
def runField (n : Nat) : BitVec 6 := BitVec.ofNat 6 (n - 1)

/-! ### The Pixel each one-pixel chunk stands for -/

/-- RGB: alpha is that of the previous pixel (R170). -/
def rgbPixel (prev : Pixel) (r g b : Byte) : Pixel := ⟨r, g, b, prev.a⟩

/-- RGBA: reads no register (R171). -/
def rgbaPixel (r g b a : Byte) : Pixel := ⟨r, g, b, a⟩

/-- A Pixel moved by three deltas modulo 256, alpha kept (R173, R174). -/
def movePixel (prev : Pixel) (dr dg db : Int) : Pixel :=
  ⟨uadd prev.r dr, uadd prev.g dg, uadd prev.b db, prev.a⟩

/-- DIFF (R173). -/
def diffPixel (prev : Pixel) (fr fg fb : BitVec 2) : Pixel :=
  movePixel prev (diffDelta fr) (diffDelta fg) (diffDelta fb)

/-- LUMA: `dr = dg + drg` and `db = dg + dbg` before the addition modulo 256 (R174). -/
def lumaPixel (prev : Pixel) (fgm : BitVec 6) (frg fbg : BitVec 4) : Pixel :=
  movePixel prev (lumaGreen fgm + lumaRel frg) (lumaGreen fgm) (lumaGreen fgm + lumaRel fbg)

/-! ### Pixel buffers -/

/-- Bytes per pixel of a buffer of `channels` channels (R51). START accepts 3 and 4 only; any other value, which no
BUSY agent holds, is laid out as 3 (log 11). -/
def pixelSize (channels : Byte) : Nat := if channels = 4 then 4 else 3

/-- The bytes of a Pixel in a buffer: red, green, blue and, with 4 channels, alpha (R51, R55). -/
def pixelBytes (channels : Byte) (p : Pixel) : List Byte :=
  if channels = 4 then [p.r, p.g, p.b, p.a] else [p.r, p.g, p.b]

/-- The Pixel that buffer bytes stand for; alpha is 255 with 3 channels (R54). `Enc.pixRead` reads 3 or 4 bytes and no
other number. -/
def pixelOfBytes (bytes : List Byte) : Pixel :=
  match bytes with
  | [r, g, b, a] => ⟨r, g, b, a⟩
  | [r, g, b] => ⟨r, g, b, 255⟩
  | _ => Config.startPixel

end Sys2Proof.Machine
end

