-- ==== Sys2Proof/Machine/Flags.lean ====
section
/-! DEFINITION. The block has no condition codes (R37). Its flags are the encoder's combinational predicates, which no
register holds (R37, R116, R119). -/

namespace Sys2Proof.Machine

/-- `alpha_same` (R116). -/
def alphaSame (p prev : Pixel) : Bool := decide (p.a = prev.a)

/-- `x` lies in the closed interval `[lo, hi]`. -/
def inRange (lo hi x : Int) : Bool := decide (lo ≤ x ∧ x ≤ hi)

/-- `fits_diff` (R116): the deltas are the wrapped ones (R245). -/
def fitsDiff (p prev : Pixel) : Bool :=
  alphaSame p prev && inRange (-2) 1 (sdelta p.r prev.r) && inRange (-2) 1 (sdelta p.g prev.g)
    && inRange (-2) 1 (sdelta p.b prev.b)

/-- `fits_luma` (R116): `dr - dg` and `db - dg` are differences of integers. -/
def fitsLuma (p prev : Pixel) : Bool :=
  alphaSame p prev && inRange (-32) 31 (sdelta p.g prev.g)
    && inRange (-8) 7 (sdelta p.r prev.r - sdelta p.g prev.g)
    && inRange (-8) 7 (sdelta p.b prev.b - sdelta p.g prev.g)

/-- The channel counts START accepts (R7, R131, R162). -/
def validChannels (c : Byte) : Bool := decide (c = 3 ∨ c = 4)

end Sys2Proof.Machine
end

