-- ==== Sys2Proof/Machine/Ops.lean ====
section
/-! DEFINITION. The named operations over memory and registers: byte spaces (20_memory.md), the Pixel History
(40_history.md part 3), the two agents' shared operations, and raising an error (60_exceptions.md). -/

namespace Sys2Proof.Machine

/-! ### Byte spaces -/

/-- The byte at an address; an unlisted address has no value (log 2). -/
def Memory.read (m : Memory) (addr : Nat) : Option Byte :=
  match m with
  | [] => none
  | (a, b) :: m => if addr = a then some b else Memory.read m addr

/-- Write one byte, keeping the addresses strictly rising. -/
def Memory.writeByte (m : Memory) (addr : Nat) (v : Byte) : Memory :=
  match m with
  | [] => [(addr, v)]
  | (a, b) :: m =>
    if addr < a then (addr, v) :: (a, b) :: m
    else if addr = a then (addr, v) :: m
    else (a, b) :: Memory.writeByte m addr v

/-- `MemWrite(S, addr, n, v)`: the bytes of `v` at rising addresses, and nothing else (R53). -/
def Memory.writeBytes (m : Memory) (addr : Nat) (v : List Byte) : Memory :=
  match v with
  | [] => m
  | b :: v => Memory.writeBytes (Memory.writeByte m addr b) (addr + 1) v

/-- Write bytes at addresses of their own, one after the other. -/
def Memory.writeCells (m : Memory) (cells : List Host.Cell) : Memory :=
  match cells with
  | [] => m
  | (a, b) :: cells => Memory.writeCells (Memory.writeByte m a b) cells

/-- `MemRead(S, addr, n)`: `n` bytes, lowest address first (R52), or the first address that has no value. -/
def Memory.readBytes (m : Memory) (addr n : Nat) : Except Nat (List Byte) :=
  match n with
  | 0 => .ok []
  | n + 1 =>
    match Memory.read m addr with
    | none => .error addr
    | some b =>
      match Memory.readBytes m (addr + 1) n with
      | .error a => .error a
      | .ok bs => .ok (b :: bs)

/-- The canonical form: addresses strictly rising. No address has a default value, so no entry is redundant. -/
def Memory.wf (m : Memory) : Bool := decide (m.Pairwise fun x y => x.1 < y.1)

/-! ### The Pixel History -/

/-- `History.reset`: what START establishes (R117, R231). -/
def History.start : History := ⟨Vector.replicate 64 Config.emptyPixel, Config.startPixel⟩

/-- `History.lookup(k)` (R118). -/
def History.lookup (h : History) (k : BitVec 6) : Pixel := h.cache[k.toNat]'(k.isLt)

/-- `History.hit(P)`: all four channels compared, whatever the channel count (R119, R246, C6). -/
def History.hit (h : History) (p : Pixel) : Bool := decide (h.lookup (hash p) = p)

/-- `History.update(P)`: one entry overwritten, nothing else (R120). -/
def History.update (h : History) (p : Pixel) : History :=
  { h with cache := h.cache.set (hash p).toNat p (hash p).isLt }

/-- The previous pixel replaced, the cache kept. -/
def History.setPrev (h : History) (p : Pixel) : History := { h with prev := p }

/-- What every chunk but INDEX and RUN does to the History (R142, R176). -/
def History.record (h : History) (p : Pixel) : History := (h.update p).setPrev p

/-! ### The two agents inside the state -/

/-- The state with another encoder. -/
def State.withEnc (s : State) (e : Enc) : State := { s with enc := e }

/-- The state with another decoder. -/
def State.withDec (s : State) (d : Dec) : State := { s with dec := d }

/-- The state with another turn (log 6). -/
def State.withTurn (s : State) (a : Agent) : State := { s with turn := a }

/-- What happens to an outcome's next state; a fault or a refusal stays. -/
def onNext (f : State → State) (o : Host.Outcome State Fault Refusal) : Host.Outcome State Fault Refusal :=
  match o with
  | .next s => .next (f s)
  | .fault r => .fault r
  | .refused r => .refused r

/-! ### Raising an error, the block's only exception

There is no handler and no return: the host issues a new START (R203). -/

/-- A History that holds free values (log 3). -/
def History.free (a : Agent) (event : Nat) : History :=
  ⟨Vector.ofFn fun i : Fin 64 => Config.freePixel a event i.val, Config.freePixel a event 64⟩

/-- A byte space whose contents are free: at each address any byte or none, never a value the model names (R69, R201;
log 3). `writeCells_canonical` says that every canonical memory is one of the contents it may have. -/
def Memory.free (a : Agent) (event : Nat) : Memory := Memory.writeCells [] (Config.freeCells a event)

/-- The encoder after `raise`: `phase` and `err` are defined; every other register holds a free value, and the output
space holds free bytes (R200, R201, R69; log 3). The input space is the host's and keeps its bytes. -/
def Enc.failed (err : Err) (e : Enc) : Enc :=
  { phase := .error
    err := err
    hist := History.free .enc e.free
    run := Config.freeNat .enc e.free 0
    pos := Config.freeNat .enc e.free 1
    wp := Config.freeNat .enc e.free 2
    width := Config.freeWord .enc e.free 0
    height := Config.freeWord .enc e.free 1
    channels := Config.freeByte .enc e.free 260
    colorspace := Config.freeByte .enc e.free 261
    pixlen := Config.freeNat .enc e.free 3
    npix := Config.freeNat .enc e.free 4
    outlen := Config.freeNat .enc e.free 5
    pix := e.pix
    str := Memory.free .enc e.free
    host := e.host
    free := e.free + 1 }

/-- The decoder after `raise`, as `Enc.failed` (R200, R201, R69; log 3). -/
def Dec.failed (err : Err) (d : Dec) : Dec :=
  { phase := .error
    err := err
    hist := History.free .dec d.free
    pc := Config.freeNat .dec d.free 0
    pos := Config.freeNat .dec d.free 1
    width := Config.freeWord .dec d.free 0
    height := Config.freeWord .dec d.free 1
    channels := Config.freeByte .dec d.free 260
    colorspace := Config.freeByte .dec d.free 261
    npix := Config.freeNat .dec d.free 2
    inlen := Config.freeNat .dec d.free 3
    str := d.str
    pix := Memory.free .dec d.free
    host := d.host
    free := d.free + 1 }

/-- `raise E` inside a step of agent `a` (R200): the step's other writes are abandoned, the other agent is not
affected (R202). -/
def raise (a : Agent) (err : Err) (s : State) : State :=
  match a with
  | .enc => s.withEnc (s.enc.failed err)
  | .dec => s.withDec (s.dec.failed err)

/-! ### The encoder's operations -/

/-- `emit(bytes)`: write at `wp` and advance it (R53). -/
def Enc.emit (e : Enc) (bytes : List Byte) : Enc :=
  { e with str := Memory.writeBytes e.str e.wp bytes, wp := e.wp + bytes.length }

/-- `PixRead(i)` (R54), or the first address without a value. -/
def Enc.pixRead (e : Enc) (i : Nat) : Except Nat Pixel :=
  match Memory.readBytes e.pix (i * pixelSize e.channels) (pixelSize e.channels) with
  | .error a => .error a
  | .ok bytes => .ok (pixelOfBytes bytes)

/-- The initialisation of a successful ENC.START (R132, R231): the output space then holds the header and nothing else,
and `outlen` holds a free value until DONE (R40; log 4). -/
def Enc.begin (width height : BitVec 32) (channels colorspace : Byte) (pixlen : Nat) (e : Enc) : Enc :=
  Enc.emit
    { e with
      hist := History.start
      run := 0
      pos := 0
      width := width
      height := height
      channels := channels
      colorspace := colorspace
      pixlen := pixlen
      npix := width.toNat * height.toNat
      err := .none
      wp := 0
      str := []
      outlen := Config.freeNat .enc e.free 5
      free := e.free + 1
      phase := .busy }
    (encode (.header width height channels colorspace))

/-! ### The decoder's operations -/

/-- `PixWrite(i, P)` (R55). -/
def Dec.pixWrite (d : Dec) (i : Nat) (p : Pixel) : Dec :=
  { d with pix := Memory.writeBytes d.pix (i * pixelSize d.channels) (pixelBytes d.channels p) }

/-- `PixWrite(i + j, P)` for `j` in `0..m-1`, in that order (R175). -/
def Dec.pixWriteRun (d : Dec) (i : Nat) (p : Pixel) (m : Nat) : Dec :=
  match m with
  | 0 => d
  | m + 1 => Dec.pixWriteRun (d.pixWrite i p) (i + 1) p m

/-- The History replaced. -/
def Dec.setHist (d : Dec) (h : History) : Dec := { d with hist := h }

/-- `pos` and `pc` moved forward (R30, R31). -/
def Dec.advance (d : Dec) (pixels bytes : Nat) : Dec := { d with pos := d.pos + pixels, pc := d.pc + bytes }

/-- The output and counting that INDEX and `tail` share: `PixWrite(pos, P)`, one pixel more, `pc` past the chunk
(R172, R176). -/
def Dec.produce (d : Dec) (p : Pixel) (size : Nat) : Dec := (d.pixWrite d.pos p).advance 1 size

/-- `tail(P)` of RGB, RGBA, DIFF and LUMA, and `pc` past the chunk (R176). -/
def Dec.tail (d : Dec) (p : Pixel) (size : Nat) : Dec := (d.setHist (d.hist.record p)).produce p size

/-- The initialisation of a successful DEC.START (R163, R231): no byte of the output space has a value until it is
written (R40; log 4). -/
def Dec.begin (width height : BitVec 32) (channels colorspace : Byte) (d : Dec) : Dec :=
  { d with
    width := width
    height := height
    channels := channels
    colorspace := colorspace
    npix := width.toNat * height.toNat
    hist := History.start
    pos := 0
    pc := 14
    err := .none
    pix := []
    phase := .busy }

/-- What every chunk's meaning is made of: enabled while BUSY with pixels missing (R164), raising TruncatedInput when
the chunk is cut short (R165, R249), and otherwise the chunk's own effect on the decoder. -/
def chunkStep (size : Nat) (effect : Dec → Dec) (s : State) : Host.Outcome State Fault Refusal :=
  if s.dec.phase = .busy ∧ s.dec.pos < s.dec.npix then
    if s.dec.inlen < s.dec.pc + size then .next (raise .dec .truncatedInput s)
    else .next (s.withDec (effect s.dec))
  else .fault (.notEnabled .dec)

/-! ### Results -/

/-- The stream an encode produced: the bytes `ENC.STR[0 .. outlen-1]`, in phase DONE only (R234). -/
def Enc.result (e : Enc) : Option (List Byte) :=
  if e.phase = .done then (Memory.readBytes e.str 0 e.outlen).toOption else none

/-- The bytes of the image a decode produced: `DEC.PIX[0 .. npix*channels-1]`, in phase DONE only (R35, R234). -/
def Dec.result (d : Dec) : Option (List Byte) :=
  if d.phase = .done then (Memory.readBytes d.pix 0 (d.npix * d.channels.toNat)).toOption else none

end Sys2Proof.Machine
end

