-- ==== Sys2Proof/Machine/Encoder.lean ====
section
/-! DEFINITION. The agent ENC (41_encoder.md): ENC.START, ENC.PIXEL, ENC.FINISH, and the host's moves on it. These steps
have no row in the opcode table; what they emit are the table's encodings. -/

namespace Sys2Proof.Machine

/-! ### ENC.START -/

/-- The validation of R131: the first failing check decides; `none` when all pass. The product is exact (R122), and
`colorspace` is not looked at (D7). -/
def encStartError (width height : BitVec 32) (channels : Byte) (pixlen : Nat) : Err :=
  if width = 0 ∨ height = 0 then .invalidDimensions
  else if validChannels channels = false then .invalidChannelCount
  else if pixlen ≠ width.toNat * height.toNat * channels.toNat then .bufferSizeMismatch
  else .none

/-- ENC.START, one atomic step, enabled in every phase but BUSY (R130; U10, log 7). -/
def encStart (width height : BitVec 32) (channels colorspace : Byte) (pixlen : Nat) (s : State) :
    Host.Outcome State Fault Refusal :=
  if s.enc.phase = .busy then .fault (.startWhileBusy .enc)
  else
    match encStartError width height channels pixlen with
    | .none => .next (s.withEnc (s.enc.begin width height channels colorspace pixlen))
    | err => .next (raise .enc err s)

/-! ### ENC.PIXEL -/

/-- The chunk that carries a pixel that differs from `prev`: cache hit, then DIFF, then LUMA, then RGB, then RGBA
(R134, R137 to R141, R243), all decided with the `prev` of before the step. -/
def pixelChunk (h : History) (p : Pixel) : Instr :=
  let dr := sdelta p.r h.prev.r
  let dg := sdelta p.g h.prev.g
  let db := sdelta p.b h.prev.b
  if h.hit p then .index (hash p)
  else if fitsDiff p h.prev then .diff (diffField dr) (diffField dg) (diffField db)
  else if fitsLuma p h.prev then .luma (lumaGreenField dg) (lumaRelField (dr - dg)) (lumaRelField (db - dg))
  else if alphaSame p h.prev then .rgb p.r p.g p.b
  else .rgba p.r p.g p.b p.a

/-- The common tail of R142: `prev` is the pixel, and the cache is written except after INDEX. -/
def pixelHistory (h : History) (p : Pixel) : History := if h.hit p then h.setPrev p else h.record p

/-- The RUN chunk of a pending run, if there is one (R136, R143). -/
def flushRun (run : Nat) : List Instr := if 0 < run then [.run (runField run)] else []

/-- The decision of R134 for one pixel: the chunks emitted, the History and the run counter after it. -/
def pixelDecision (h : History) (run : Nat) (p : Pixel) : List Instr × History × Nat :=
  if p = h.prev then
    if run + 1 = 62 then ([.run (runField 62)], h, 0) else ([], h, run + 1)
  else (flushRun run ++ [pixelChunk h p], pixelHistory h p, 0)

/-- The encoder after consuming the pixel at `pos` (R133, R134). -/
def Enc.consume (e : Enc) (p : Pixel) : Enc :=
  { e.emit (encodeAll (pixelDecision e.hist e.run p).1) with
    hist := (pixelDecision e.hist e.run p).2.1
    run := (pixelDecision e.hist e.run p).2.2
    pos := e.pos + 1 }

/-- ENC.PIXEL, enabled while BUSY with pixels left (R133). It raises nothing; a byte of `ENC.PIX` that the host never
placed stops the model (log 2). -/
def encPixel (s : State) : Host.Outcome State Fault Refusal :=
  if s.enc.phase = .busy ∧ s.enc.pos < s.enc.npix then
    match s.enc.pixRead s.enc.pos with
    | .error a => .fault (.unwrittenByte .encPix a)
    | .ok p => .next (s.withEnc (s.enc.consume p))
  else .fault (.notEnabled .enc)

/-! ### ENC.FINISH -/

/-- The encoder with its pending run flushed and the end marker written (R143). -/
def Enc.flushAndMark (e : Enc) : Enc :=
  { (e.emit (encodeAll (flushRun e.run))).emit (encode .endMarker) with run := 0 }

/-- ENC.FINISH, enabled while BUSY with no pixel left (R143). -/
def encFinish (s : State) : Host.Outcome State Fault Refusal :=
  if s.enc.phase = .busy ∧ s.enc.pos = s.enc.npix then
    .next (s.withEnc { s.enc.flushAndMark with outlen := s.enc.flushAndMark.wp, phase := .done })
  else .fault (.notEnabled .enc)

/-! ### The agent's step -/

/-- The encoder with a move taken from the host's list. -/
def Enc.taken (rest : List EncMove) (e : Enc) : Enc := { e with host := rest }

/-- The host's next move on the encoder, taken only while it is not BUSY (R67, R130; log 5). -/
def encHostMove (s : State) : Host.Outcome State Fault Refusal :=
  match s.enc.host with
  | [] => .next s
  | .load addr bytes :: rest =>
    .next (s.withEnc { s.enc with pix := Memory.writeBytes s.enc.pix addr bytes, host := rest })
  | .start width height channels colorspace pixlen :: rest =>
    encStart width height channels colorspace pixlen (s.withEnc (s.enc.taken rest))

/-- Whether some step of ENC is enabled (R130, R133, R143). -/
def encEnabled (s : State) : Bool :=
  match s.enc.phase with
  | .busy => decide (s.enc.pos ≤ s.enc.npix)
  | .idle => !s.enc.host.isEmpty
  | .done => !s.enc.host.isEmpty
  | .error => !s.enc.host.isEmpty

/-- The enabled step of ENC: PIXEL or FINISH while BUSY, a move of the host otherwise. -/
def encStep (s : State) : Host.Outcome State Fault Refusal :=
  match s.enc.phase with
  | .busy => if s.enc.pos < s.enc.npix then encPixel s else encFinish s
  | .idle => encHostMove s
  | .done => encHostMove s
  | .error => encHostMove s

end Sys2Proof.Machine
end

