-- ==== Sys2Proof/Machine/Cached.lean ====
section
/-! DEFINITION. The cache chunk INDEX. -/

namespace Sys2Proof.Machine

/-- INDEX (R172): `prev` becomes the entry, the pixel is produced, and the cache is not written (C1, R247, R248). -/
def execIndex (k : BitVec 6) (s : State) : Host.Outcome State Fault Refusal :=
  chunkStep 1 (fun d => (d.setHist (d.hist.setPrev (d.hist.lookup k))).produce (d.hist.lookup k) 1) s

end Sys2Proof.Machine
end

