-- ==== Sys2Proof/Machine/Delta.lean ====
section
/-! DEFINITION. The delta chunks DIFF and LUMA. -/

namespace Sys2Proof.Machine

/-- DIFF (R173). -/
def execDiff (fr fg fb : BitVec 2) (s : State) : Host.Outcome State Fault Refusal :=
  chunkStep 1 (fun d => d.tail (diffPixel d.hist.prev fr fg fb) 1) s

/-- LUMA (R174). -/
def execLuma (fgm : BitVec 6) (frg fbg : BitVec 4) (s : State) : Host.Outcome State Fault Refusal :=
  chunkStep 2 (fun d => d.tail (lumaPixel d.hist.prev fgm frg fbg) 2) s

end Sys2Proof.Machine
end

