-- ==== Sys2Proof/Machine/Framing.lean ====
section
/-! DEFINITION. The framing items: HEADER, which DEC.START executes, and END, which DEC.FINISH executes. -/

namespace Sys2Proof.Machine

/-- HEADER: DEC.START on a header whose magic is right (R160 to R163). `DEC.inlen` holds START's argument. Enabled in
every phase but BUSY (U10, log 7). The order is that of R195: length, then content. -/
def execHeader (width height : BitVec 32) (channels colorspace : Byte) (s : State) :
    Host.Outcome State Fault Refusal :=
  if s.dec.phase = .busy then .fault (.startWhileBusy .dec)
  else if s.dec.inlen < 14 then .next (raise .dec .truncatedInput s)
  else if width = 0 ∨ height = 0 then .next (raise .dec .invalidHeader s)
  else if validChannels channels = false then .next (raise .dec .invalidHeader s)
  else .next (s.withDec (s.dec.begin width height channels colorspace))

/-- END: DEC.FINISH on a marker whose bytes are right (R177). `pc` is not moved past it, and later bytes are not looked
at (D9). -/
def execEndMarker (s : State) : Host.Outcome State Fault Refusal :=
  if s.dec.phase = .busy ∧ s.dec.pos = s.dec.npix then
    if s.dec.inlen < s.dec.pc + 8 then .next (raise .dec .truncatedInput s)
    else .next (s.withDec { s.dec with phase := .done })
  else .fault (.notEnabled .dec)

end Sys2Proof.Machine
end

