-- ==== Sys2Proof/Machine/Literal.lean ====
section
/-! DEFINITION. The literal chunks RGB and RGBA. -/

namespace Sys2Proof.Machine

/-- RGB (R170): alpha comes from `prev`. -/
def execRgb (r g b : Byte) (s : State) : Host.Outcome State Fault Refusal :=
  chunkStep 4 (fun d => d.tail (rgbPixel d.hist.prev r g b) 4) s

/-- RGBA (R171), legal with 3 channels too (R178). -/
def execRgba (r g b a : Byte) (s : State) : Host.Outcome State Fault Refusal :=
  chunkStep 5 (fun d => d.tail (rgbaPixel r g b a) 5) s

end Sys2Proof.Machine
end

