-- ==== Sys2Proof/Machine/RunLength.lean ====
section
/-! DEFINITION. The run-length chunk RUN. -/

namespace Sys2Proof.Machine

/-- The pixels a RUN writes: its length, clamped to the pixels that remain (R175, D10). -/
def runPixels (frun : BitVec 6) (d : Dec) : Nat := min (runLength frun) (d.npix - d.pos)

/-- RUN (R175): copies of `prev`; cache and `prev` are not written (R248). -/
def execRun (frun : BitVec 6) (s : State) : Host.Outcome State Fault Refusal :=
  chunkStep 1 (fun d => (d.pixWriteRun d.pos d.hist.prev (runPixels frun d)).advance (runPixels frun d) 1) s

end Sys2Proof.Machine
end

