-- ==== Sys2Proof/Machine/Dispatch.lean ====
section
/-! DEFINITION. The one match from instructions to their meanings. -/

namespace Sys2Proof.Machine

/-- The decoder executes one instruction. -/
def exec (i : Instr) (s : State) : Host.Outcome State Fault Refusal :=
  match i with
  | .rgb r g b => Sys2Proof.Machine.execRgb r g b s
  | .rgba r g b a => Sys2Proof.Machine.execRgba r g b a s
  | .index k => Sys2Proof.Machine.execIndex k s
  | .diff fr fg fb => Sys2Proof.Machine.execDiff fr fg fb s
  | .luma fgm frg fbg => Sys2Proof.Machine.execLuma fgm frg fbg s
  | .run frun => Sys2Proof.Machine.execRun frun s
  | .header width height channels colorspace => Sys2Proof.Machine.execHeader width height channels colorspace s
  | .endMarker => Sys2Proof.Machine.execEndMarker s

end Sys2Proof.Machine
end

