-- ==== Sys2Proof/Machine/Fetch.lean ====
section
/-! DEFINITION. The agent DEC (42_decoder.md): fetching an instruction from `DEC.STR`, the host's moves on the agent, and
its step. -/

namespace Sys2Proof.Machine

/-- What a fetch gives. -/
inductive Fetched where
  /-- An instruction. -/
  | instr (i : Instr)
  /-- No instruction; the step raises an error. -/
  | failed (e : DecodeError)
  /-- A byte of the stream that nothing has written (log 2). -/
  | unwritten (addr : Nat)
  deriving DecidableEq, Repr

/-- The error each failure to decode raises: wrong magic is InvalidHeader (R162), a stream or an item cut short
TruncatedInput (R161, R165, R177), and a wrong marker TruncatedInput (R177, D8). -/
def decodeFailure : DecodeError → Err
  | .truncated => .truncatedInput
  | .badMagic => .invalidHeader
  | .badMarker => .truncatedInput

/-- Read `n` bytes and decode them. -/
def fetchAt (place : Place) (d : Dec) (addr n : Nat) : Fetched :=
  match Memory.readBytes d.str addr n with
  | .error a => .unwritten a
  | .ok bytes =>
    match decode place bytes with
    | .ok (i, _) => .instr i
    | .error e => .failed e

/-- The header, from offset 0, once 14 bytes are there (R161, R162). -/
def fetchHeader (d : Dec) : Fetched :=
  if d.inlen < 14 then .failed .truncated else fetchAt .start d 0 14

/-- A chunk: the tag byte if there is one, then the whole chunk if it is there (R165). -/
def fetchChunk (d : Dec) : Fetched :=
  if d.inlen ≤ d.pc then .failed .truncated
  else
    match Memory.read d.str d.pc with
    | none => .unwritten d.pc
    | some t =>
      if d.inlen < d.pc + chunkSize t then .failed .truncated else fetchAt .chunk d d.pc (chunkSize t)

/-- The end marker, once 8 bytes are there (R177). -/
def fetchEnd (d : Dec) : Fetched :=
  if d.inlen < d.pc + 8 then .failed .truncated else fetchAt .finish d d.pc 8

/-- What a BUSY decoder fetches: a chunk while pixels are missing, then the end marker (R164). -/
def fetch (d : Dec) : Fetched := if d.pos < d.npix then fetchChunk d else fetchEnd d

/-- Execute what was fetched. -/
def runFetched (f : Fetched) (s : State) : Host.Outcome State Fault Refusal :=
  match f with
  | .instr i => exec i s
  | .failed e => .next (raise .dec (decodeFailure e) s)
  | .unwritten a => .fault (.unwrittenByte .decStr a)

/-- The decoder with DEC.START's argument latched (R32, R160) and the move taken from the host's list. -/
def Dec.latch (inlen : Nat) (rest : List DecMove) (d : Dec) : Dec := { d with inlen := inlen, host := rest }

/-- The host's next move on the decoder, taken only while it is not BUSY (R67, R160; log 5). DEC.START is one atomic
step: latch, fetch the header, execute it. -/
def decHostMove (s : State) : Host.Outcome State Fault Refusal :=
  match s.dec.host with
  | [] => .next s
  | .load addr bytes :: rest =>
    .next (s.withDec { s.dec with str := Memory.writeBytes s.dec.str addr bytes, host := rest })
  | .start inlen :: rest =>
    runFetched (fetchHeader (s.dec.latch inlen rest)) (s.withDec (s.dec.latch inlen rest))

/-- Whether some step of DEC is enabled (R160, R164, R177). -/
def decEnabled (s : State) : Bool :=
  match s.dec.phase with
  | .busy => decide (s.dec.pos ≤ s.dec.npix)
  | .idle => !s.dec.host.isEmpty
  | .done => !s.dec.host.isEmpty
  | .error => !s.dec.host.isEmpty

/-- The enabled step of DEC: CHUNK or FINISH while BUSY, a move of the host otherwise. -/
def decStep (s : State) : Host.Outcome State Fault Refusal :=
  match s.dec.phase with
  | .busy => runFetched (fetch s.dec) s
  | .idle => decHostMove s
  | .done => decHostMove s
  | .error => decHostMove s

/-! ### Placing one item where the next step fetches it (logs 9 and 10) -/

/-- The decoder with an item's bytes where DEC.START will read the header: at offset 0, the agent not BUSY, and START
the host's next move. -/
def Dec.placeHeader (bytes : List Byte) (d : Dec) : Dec :=
  { d with
    phase := if d.phase = .busy then .idle else d.phase
    str := Memory.writeBytes d.str 0 bytes
    host := .start bytes.length :: d.host }

/-- The decoder with bytes at `pc`, all of them inside the stream. -/
def Dec.placeAtPc (bytes : List Byte) (d : Dec) : Dec :=
  { d with str := Memory.writeBytes d.str d.pc bytes, inlen := max d.inlen (d.pc + bytes.length) }

/-- A decoder that is about to execute a chunk: itself if it is, else as after the START of a 1 by 1 image. -/
def Dec.readyForChunk (d : Dec) : Dec := if d.phase = .busy ∧ d.pos < d.npix then d else d.begin 1 1 4 0

/-- A decoder that is about to execute the end marker: itself if it is, else as after the START of a 1 by 1 image,
its pixel counted. -/
def Dec.readyForEnd (d : Dec) : Dec :=
  if d.phase = .busy ∧ d.pos = d.npix then d else { d.begin 1 1 4 0 with pos := 1 }

/-- The state whose next step executes the item that begins `bytes`. -/
def placeItem (place : Place) (bytes : List Byte) (s : State) : State :=
  match place with
  | .start => (s.withDec (s.dec.placeHeader bytes)).withTurn .dec
  | .chunk => (s.withDec (s.dec.readyForChunk.placeAtPc bytes)).withTurn .dec
  | .finish => (s.withDec (s.dec.readyForEnd.placeAtPc bytes)).withTurn .dec

end Sys2Proof.Machine
end

