-- ==== Sys2Proof/Machine/Schedule.lean ====
section
/-! DEFINITION. Which agent moves next (R12, R21; log 6). -/

namespace Sys2Proof.Machine

/-- Whether some step of an agent is enabled. -/
def enabled (a : Agent) (s : State) : Bool :=
  match a with
  | .enc => encEnabled s
  | .dec => decEnabled s

/-- The step of an agent. -/
def agentStep (a : Agent) (s : State) : Host.Outcome State Fault Refusal :=
  match a with
  | .enc => encStep s
  | .dec => decStep s

/-- The agent that moves: the one whose turn it is if a step of it is enabled, else the other one if a step of that is
enabled, else neither: the block waits for the host (R210). -/
def mover (s : State) : Option Agent :=
  if enabled s.turn s then some s.turn
  else if enabled s.turn.other s then some s.turn.other
  else none

end Sys2Proof.Machine
end

