-- ==== Sys2Proof/Machine/Step.lean ====
section
/-! DEFINITION. One step of the block. -/

namespace Sys2Proof.Machine

/-- One atomic step of one agent (R12), after which it is the other agent's turn; with no step enabled the block waits
unchanged (R210; log 6). -/
def step (s : State) : Host.Outcome State Fault Refusal :=
  match mover s with
  | none => .next s
  | some a => onNext (fun t => t.withTurn a.other) (agentStep a s)

/-- `s` with a table word placed so that the next step fetches and executes it (logs 9 and 10). -/
def State.withFetchWord (s : State) (nbits w : Nat) : State :=
  placeItem (tablePlace nbits w) (tableBytes nbits w) s

end Sys2Proof.Machine
end

