-- ==== Sys2Proof/Machine/Functions.lean ====
section
/-! DEFINITION. The two operations of R6 as functions on whole buffers: `encode` (R144) and `decode` (R180). The agents'
steps are the machine; these are the rules' second account of it, which claims compare with the first. -/

namespace Sys2Proof.Machine

/-- The Pixels of a buffer, `n` of them, in scan order (R51, R54). -/
def splitPixels (channels : Byte) (n : Nat) (bytes : List Byte) : List Pixel :=
  match n with
  | 0 => []
  | n + 1 =>
    pixelOfBytes (bytes.take (pixelSize channels)) :: splitPixels channels n (bytes.drop (pixelSize channels))

/-- The buffer of a sequence of Pixels (R51, R55). -/
def joinPixels (channels : Byte) (ps : List Pixel) : List Byte := ps.flatMap (pixelBytes channels)

/-- The chunks of a sequence of pixels, the last run flushed (R144). -/
def encodeLoop (h : History) (run : Nat) (ps : List Pixel) : List Instr :=
  match ps with
  | [] => flushRun run
  | p :: ps =>
    (pixelDecision h run p).1 ++ encodeLoop (pixelDecision h run p).2.1 (pixelDecision h run p).2.2 ps

/-- `encode(pix, width, height, channels, colorspace)` (R144). -/
def encodeImage (pix : List Byte) (width height : BitVec 32) (channels colorspace : Byte) : Except Err (List Byte) :=
  match encStartError width height channels pix.length with
  | .none =>
    .ok (encode (.header width height channels colorspace)
      ++ encodeAll (encodeLoop History.start 0 (splitPixels channels (width.toNat * height.toNat) pix))
      ++ encode .endMarker)
  | err => .error err

/-- An image: the results of a decode (R6, R234). -/
structure Image where
  pixels : List Byte
  width : BitVec 32
  height : BitVec 32
  channels : Byte
  colorspace : Byte
  deriving DecidableEq, Repr

/-- The decoder executes a sequence of instructions, one after the other, stopping at the first stop. -/
def execAll (is : List Instr) (s : State) : Host.Outcome State Fault Refusal :=
  match is with
  | [] => .next s
  | i :: is =>
    match exec i s with
    | .next s => execAll is s
    | .fault r => .fault r
    | .refused r => .refused r

/-- A chunk as a function of the History (R170 to R176): the Pixel, how many copies of it before the clamp, and the
History after it. A framing item yields nothing. -/
def chunkMeaning (i : Instr) (h : History) : Pixel × Nat × History :=
  match i with
  | .rgb r g b => (rgbPixel h.prev r g b, 1, h.record (rgbPixel h.prev r g b))
  | .rgba r g b a => (rgbaPixel r g b a, 1, h.record (rgbaPixel r g b a))
  | .index k => (h.lookup k, 1, h.setPrev (h.lookup k))
  | .diff fr fg fb => (diffPixel h.prev fr fg fb, 1, h.record (diffPixel h.prev fr fg fb))
  | .luma fgm frg fbg => (lumaPixel h.prev fgm frg fbg, 1, h.record (lumaPixel h.prev fgm frg fbg))
  | .run frun => (h.prev, runLength frun, h)
  | .header _ _ _ _ => (h.prev, 0, h)
  | .endMarker => (h.prev, 0, h)

/-- The chunk loop (R164, R180): decode chunks until no pixel of the `n` is missing; the Pixels, and the bytes after the
last chunk. Every chunk yields at least one pixel, so `fuel = n` suffices (R179). -/
def decodeLoop (fuel n : Nat) (h : History) (bytes : List Byte) : Except Err (List Pixel × List Byte) :=
  match fuel with
  | 0 => .ok ([], bytes)
  | fuel + 1 =>
    if n = 0 then .ok ([], bytes)
    else
      match decodeChunk bytes with
      | .error _ => .error .truncatedInput
      | .ok (i, rest) =>
        match decodeLoop fuel (n - min (chunkMeaning i h).2.1 n) (chunkMeaning i h).2.2 rest with
        | .error e => .error e
        | .ok (ps, rest) => .ok (List.replicate (min (chunkMeaning i h).2.1 n) (chunkMeaning i h).1 ++ ps, rest)

/-- `decode(s)` (R180). -/
def decodeStream (s : List Byte) : Except Err Image :=
  match decodeHeader s with
  | .ok (.header width height channels colorspace, rest) =>
    if width = 0 ∨ height = 0 then .error .invalidHeader
    else if validChannels channels = false then .error .invalidHeader
    else
      match decodeLoop (width.toNat * height.toNat) (width.toNat * height.toNat) History.start rest with
      | .error e => .error e
      | .ok (ps, rest) =>
        match decodeEnd rest with
        | .error e => .error (decodeFailure e)
        | .ok _ =>
          .ok { pixels := joinPixels channels ps, width := width, height := height, channels := channels,
                colorspace := colorspace }
  | .ok _ => .error .invalidHeader
  | .error e => .error (decodeFailure e)

end Sys2Proof.Machine
end

