-- ==== Sys2Proof/Safety.lean ====
section
/-! DEFINITION. What a good state is, in the terms claims use: the invariants of the two agents, and the host's duty to
have placed what it announces. -/

namespace Sys2Proof.Machine

/-- The invariant of R25: every entry is (0,0,0,0) or stands at the index of its own hash. -/
def History.Indexed (h : History) : Prop :=
  ∀ k : BitVec 6, h.lookup k = Config.emptyPixel ∨ hash (h.lookup k) = k

/-- The errors each agent produces (R34). -/
def Err.ofAgent (a : Agent) (e : Err) : Prop :=
  match a with
  | .enc => e = .none ∨ e = .invalidDimensions ∨ e = .invalidChannelCount ∨ e = .bufferSizeMismatch
  | .dec => e = .none ∨ e = .invalidHeader ∨ e = .truncatedInput

/-- What holds of the encoder while it is BUSY. -/
structure Enc.Working (e : Enc) : Prop where
  channels_ok : e.channels = 3 ∨ e.channels = 4
  width_pos : e.width ≠ 0
  height_pos : e.height ≠ 0
  npix_eq : e.npix = e.width.toNat * e.height.toNat
  pixlen_eq : e.pixlen = e.npix * e.channels.toNat
  pos_le : e.pos ≤ e.npix
  /-- R26. -/
  run_le : e.run ≤ 61
  run_le_pos : e.run ≤ e.pos
  /-- R25. -/
  indexed : e.hist.Indexed
  /-- R145. -/
  opaque_alpha : e.channels = 3 → e.hist.prev.a = 255
  wp_ge : 14 ≤ e.wp
  /-- Every byte below `wp` has been written, and no other (R28, R53). -/
  written : ∀ a, (Memory.read e.str a).isSome = true ↔ a < e.wp

/-- What holds of the decoder while it is BUSY. -/
structure Dec.Working (d : Dec) : Prop where
  channels_ok : d.channels = 3 ∨ d.channels = 4
  width_pos : d.width ≠ 0
  height_pos : d.height ≠ 0
  npix_eq : d.npix = d.width.toNat * d.height.toNat
  pos_le : d.pos ≤ d.npix
  pc_ge : 14 ≤ d.pc
  /-- R30. -/
  pc_le : d.pc ≤ d.inlen
  /-- R25. -/
  indexed : d.hist.Indexed
  /-- Every byte of the pixels produced so far has been written, and no other (R31, R53). -/
  written : ∀ a, (Memory.read d.pix a).isSome = true ↔ a < d.pos * d.channels.toNat

/-- The encoder's invariant. -/
structure Enc.Inv (e : Enc) : Prop where
  pix_wf : Memory.wf e.pix = true
  str_wf : Memory.wf e.str = true
  /-- R34. -/
  err_iff : e.err ≠ .none ↔ e.phase = .error
  err_of : e.err.ofAgent .enc
  working : e.phase = .busy → e.Working
  /-- In DONE the whole stream can be read (R35, R234). -/
  finished : e.phase = .done → ∀ a, a < e.outlen → (Memory.read e.str a).isSome = true

/-- The decoder's invariant. -/
structure Dec.Inv (d : Dec) : Prop where
  str_wf : Memory.wf d.str = true
  pix_wf : Memory.wf d.pix = true
  /-- R34. -/
  err_iff : d.err ≠ .none ↔ d.phase = .error
  err_of : d.err.ofAgent .dec
  working : d.phase = .busy → d.Working
  /-- In DONE the whole image can be read (R35, R234). -/
  finished : d.phase = .done → ∀ a, a < d.npix * d.channels.toNat → (Memory.read d.pix a).isSome = true

/-- The block's invariant. -/
structure State.Inv (s : State) : Prop where
  enc : s.enc.Inv
  dec : s.dec.Inv

/-- The host has placed every byte of the pixel buffer it announced (R232). -/
def Enc.Loaded (e : Enc) : Prop := ∀ a, a < e.pixlen → (Memory.read e.pix a).isSome = true

/-- The host has placed every byte of the stream it announced (R233). -/
def Dec.Loaded (d : Dec) : Prop := ∀ a, a < d.inlen → (Memory.read d.str a).isSome = true

/-- The encoder has nothing to do: it is not BUSY and no move of the host is waiting. -/
def Enc.Resting (e : Enc) : Prop := e.phase ≠ .busy ∧ e.host = []

/-- The decoder has nothing to do. -/
def Dec.Resting (d : Dec) : Prop := d.phase ≠ .busy ∧ d.host = []

end Sys2Proof.Machine
end

