-- ==== Sys2Proof/Certificates/Slice0/Obligations.lean ====
section
/-! DEFINITION. The statements for the provers, each from the spec's numbered rules. -/

open Sys2Proof Sys2Proof.Machine

/-! ### Encoding -/

/-- Words written out from R81 to R83 and the vectors V33 to V37, W9 and P1: each decodes to the instruction it stands
for. -/
def Obligations.SpecWordsDecode : Prop :=
  decode .chunk [0xFE, 0x64, 0x96, 0xC8] = .ok (.rgb 100 150 200, [])
  ∧ decode .chunk [0xFF, 0x64, 0x96, 0xC8, 0x80] = .ok (.rgba 100 150 200 128, [])
  ∧ decode .chunk [0b00110001] = .ok (.index 49, [])
  ∧ decode .chunk [0b01111001] = .ok (.diff 0b11 0b10 0b01, [])
  ∧ decode .chunk [0b10110100, 0b01100011] = .ok (.luma 52 6 3, [])
  ∧ decode .chunk [0b11111101] = .ok (.run 61, [])
  ∧ decode .start [0x71, 0x6F, 0x69, 0x66, 0, 0, 0, 0xC8, 0, 0, 0, 1, 3, 0] = .ok (.header 200 1 3 0, [])
  ∧ decode .finish [0, 0, 0, 0, 0, 0, 0, 1] = .ok (.endMarker, [])

/-- No bit of an encoding is dropped: decoding the bytes of a well-formed instruction, at its place, gives it back and
leaves what follows (R81 to R90). -/
def Obligations.EncodeThenDecode : Prop :=
  ∀ (i : Instr) (rest : List Byte), i.WellFormed = true → decode i.place (encode i ++ rest) = .ok (i, rest)

/-- Every byte sequence that decodes has one meaning: the instruction is well-formed, belongs to the place, and its
bytes are the ones read (R84, R85). -/
def Obligations.DecodeThenEncode : Prop :=
  ∀ (place : Place) (bytes : List Byte) (i : Instr) (rest : List Byte), decode place bytes = .ok (i, rest) →
    i.WellFormed = true ∧ i.place = place ∧ bytes = encode i ++ rest

/-- R84 and R85: the kind of a chunk by its first byte, in the ranges of R85's table; every payload is legal; and a
chunk fails to decode only when it is cut short, its length being known from the first byte. Where the fields of DIFF and
LUMA stand and in which order literal bytes come is R81, R87, R88 and R90, the spec's own decisions D13 and D12 (log
18). -/
def Obligations.FirstByteSelectsKind : Prop :=
  ∀ (t : Byte) (rest : List Byte),
    (t.toNat ≤ 0x3F → ∃ k, k.toNat = t.toNat ∧ decodeChunk (t :: rest) = .ok (.index k, rest))
    ∧ (0x40 ≤ t.toNat ∧ t.toNat ≤ 0x7F → ∃ fr fg fb, 0x40 + fr.toNat * 16 + fg.toNat * 4 + fb.toNat = t.toNat
        ∧ decodeChunk (t :: rest) = .ok (.diff fr fg fb, rest))
    ∧ (0x80 ≤ t.toNat ∧ t.toNat ≤ 0xBF → ∀ u, ∃ fgm frg fbg, 0x80 + fgm.toNat = t.toNat
        ∧ frg.toNat * 16 + fbg.toNat = u.toNat ∧ decodeChunk (t :: u :: rest) = .ok (.luma fgm frg fbg, rest))
    ∧ (0xC0 ≤ t.toNat ∧ t.toNat ≤ 0xFD → ∃ frun, 0xC0 + frun.toNat = t.toNat ∧ frun.toNat ≤ 61
        ∧ decodeChunk (t :: rest) = .ok (.run frun, rest))
    ∧ (t = 0xFE → ∀ r g b, decodeChunk (t :: r :: g :: b :: rest) = .ok (.rgb r g b, rest))
    ∧ (t = 0xFF → ∀ r g b a, decodeChunk (t :: r :: g :: b :: a :: rest) = .ok (.rgba r g b a, rest))
    ∧ (chunkSize t ≤ (t :: rest).length ↔ ∃ i rest', decodeChunk (t :: rest) = .ok (i, rest'))
    ∧ (∀ i rest', decodeChunk (t :: rest) = .ok (i, rest') → i.size = chunkSize t)

/-- R86: INDEX has no bias; the byte is the index. -/
def Obligations.IndexByteIsIndex : Prop :=
  ∀ k : BitVec 6, (encode (.index k)).map BitVec.toNat = [k.toNat] ∧ decode .chunk (encode (.index k)) = .ok (.index k, [])

/-- R87: the DIFF fields hold the deltas biased by +2, `fr` in bits 5..4, `fg` in 3..2, `fb` in 1..0, read and
written. -/
def Obligations.DiffFieldsAreBiased : Prop :=
  (∀ fr fg fb : BitVec 2,
    (encode (.diff fr fg fb)).map BitVec.toNat = [0x40 + fr.toNat * 16 + fg.toNat * 4 + fb.toNat]
    ∧ decode .chunk (encode (.diff fr fg fb)) = .ok (.diff fr fg fb, [])
    ∧ diffDelta fr = (fr.toNat : Int) - 2 ∧ -2 ≤ diffDelta fr ∧ diffDelta fr ≤ 1)
  ∧ ∀ dr dg db : Int, -2 ≤ dr ∧ dr ≤ 1 → -2 ≤ dg ∧ dg ≤ 1 → -2 ≤ db ∧ db ≤ 1 →
    (diffDelta (diffField dr) = dr ∧ diffDelta (diffField dg) = dg ∧ diffDelta (diffField db) = db)
    ∧ ((encode (.diff (diffField dr) (diffField dg) (diffField db))).map fun t => (t.toNat : Int))
      = [0x40 + (dr + 2) * 16 + (dg + 2) * 4 + (db + 2)]

/-- R88: the LUMA fields hold the green delta biased by +32 and the differences to green biased by +8, read and written;
red and blue then move by -40 to 38. -/
def Obligations.LumaFieldsAreBiased : Prop :=
  (∀ (fgm : BitVec 6) (frg fbg : BitVec 4),
    (encode (.luma fgm frg fbg)).map BitVec.toNat = [0x80 + fgm.toNat, frg.toNat * 16 + fbg.toNat]
    ∧ decode .chunk (encode (.luma fgm frg fbg)) = .ok (.luma fgm frg fbg, [])
    ∧ lumaGreen fgm = (fgm.toNat : Int) - 32 ∧ -32 ≤ lumaGreen fgm ∧ lumaGreen fgm ≤ 31
    ∧ lumaRel frg = (frg.toNat : Int) - 8 ∧ -8 ≤ lumaRel frg ∧ lumaRel frg ≤ 7
    ∧ -40 ≤ lumaGreen fgm + lumaRel frg ∧ lumaGreen fgm + lumaRel frg ≤ 38)
  ∧ ∀ dg drg dbg : Int, -32 ≤ dg ∧ dg ≤ 31 → -8 ≤ drg ∧ drg ≤ 7 → -8 ≤ dbg ∧ dbg ≤ 7 →
    (lumaGreen (lumaGreenField dg) = dg ∧ lumaRel (lumaRelField drg) = drg ∧ lumaRel (lumaRelField dbg) = dbg)
    ∧ ((encode (.luma (lumaGreenField dg) (lumaRelField drg) (lumaRelField dbg))).map fun t => (t.toNat : Int))
      = [0x80 + (dg + 32), (drg + 8) * 16 + (dbg + 8)]

/-- R89: the RUN field holds the run length biased by -1, read and written; 62 is the longest and its byte is 0xFD. -/
def Obligations.RunFieldIsBiased : Prop :=
  (∀ frun : BitVec 6, frun.toNat ≤ 61 →
    (encode (.run frun)).map BitVec.toNat = [0xC0 + frun.toNat]
    ∧ decode .chunk (encode (.run frun)) = .ok (.run frun, [])
    ∧ runLength frun = frun.toNat + 1 ∧ 1 ≤ runLength frun ∧ runLength frun ≤ 62)
  ∧ ∀ n : Nat, 1 ≤ n ∧ n ≤ 62 →
    runLength (runField n) = n ∧ (Instr.run (runField n)).WellFormed = true
    ∧ (encode (.run (runField n))).map BitVec.toNat = [0xC0 + (n - 1)]

/-- R82 and R56 (the magic's codes are general knowledge, log 18): the header's bytes, width and height most
significant byte first, and reading them back. -/
def Obligations.HeaderBytesAreBigEndian : Prop :=
  ∀ (w h : BitVec 32) (c cs : Byte),
    (encode (.header w h c cs)).map BitVec.toNat
      = [0x71, 0x6F, 0x69, 0x66,
         w.toNat / 2 ^ 24, w.toNat / 2 ^ 16 % 256, w.toNat / 2 ^ 8 % 256, w.toNat % 256,
         h.toNat / 2 ^ 24, h.toNat / 2 ^ 16 % 256, h.toNat / 2 ^ 8 % 256, h.toNat % 256, c.toNat, cs.toNat]
    ∧ ∀ b0 b1 b2 b3 : Byte,
      (ube32 b0 b1 b2 b3).toNat = b0.toNat * 2 ^ 24 + b1.toNat * 2 ^ 16 + b2.toNat * 2 ^ 8 + b3.toNat

/-! ### Arithmetic -/

/-- R110: the hash is the weighted sum of the four channels modulo 64. -/
def Obligations.HashIsWeightedSum : Prop :=
  ∀ p : Pixel, (hash p).toNat = (p.r.toNat * 3 + p.g.toNat * 5 + p.b.toNat * 7 + p.a.toNat * 11) % 64

/-- R111, which the spec derives from R110: the hash is unchanged when the sum is taken modulo 256, when products and
sum are 8-bit, when the products are taken modulo 64, and when only the low six bits of each channel are used; the sum
never exceeds 6630. -/
def Obligations.HashSurvivesNarrowing : Prop :=
  ∀ p : Pixel,
    p.r.toNat * 3 + p.g.toNat * 5 + p.b.toNat * 7 + p.a.toNat * 11 ≤ 6630
    ∧ (hash p).toNat = (p.r.toNat * 3 + p.g.toNat * 5 + p.b.toNat * 7 + p.a.toNat * 11) % 256 % 64
    ∧ (hash p).toNat = (p.r * 3 + p.g * 5 + p.b * 7 + p.a * 11).toNat % 64
    ∧ (hash p).toNat
      = (p.r.toNat * 3 % 64 + p.g.toNat * 5 % 64 + p.b.toNat * 7 % 64 + p.a.toNat * 11 % 64) % 64
    ∧ (hash p).toNat = (p.r.toNat % 64 * 3 + p.g.toNat % 64 * 5 + p.b.toNat % 64 * 7 + p.a.toNat % 64 * 11) % 64

/-- R113: `sdelta(c, p)` is the unique `d` in [-128, 127] with `wrap8(p + d) = c`. -/
def Obligations.SignedDeltaIsUnique : Prop :=
  ∀ (c p : Byte) (d : Int), sdelta c p = d ↔ (-128 ≤ d ∧ d ≤ 127) ∧ wrap8 ((p.toNat : Int) + d) = c

/-- R114: `uadd(p, d)` is `p + d` modulo 256, for every integer `d`. -/
def Obligations.UnsignedAddWraps : Prop :=
  ∀ (p : Byte) (d : Int), ((uadd p d).toNat : Int) = ((p.toNat : Int) + d) % 256

/-- R115: adding the signed delta back gives the current channel. -/
def Obligations.DeltaInversion : Prop := ∀ c p : Byte, uadd p (sdelta c p) = c

/-- R54 and R55, whose byte order is decision D11 (log 18): a pixel buffer holds red, green, blue and, with 4
channels, alpha, at `i * channels`; with 3 channels alpha is read as 255 and not written. -/
def Obligations.PixelBufferLayout : Prop :=
  (∀ (e : Enc) (i : Nat) (r g b : Byte), e.channels = 3 → Memory.readBytes e.pix (i * 3) 3 = .ok [r, g, b] →
    e.pixRead i = .ok ⟨r, g, b, 255⟩)
  ∧ (∀ (e : Enc) (i : Nat) (r g b a : Byte), e.channels = 4 → Memory.readBytes e.pix (i * 4) 4 = .ok [r, g, b, a] →
    e.pixRead i = .ok ⟨r, g, b, a⟩)
  ∧ (∀ (d : Dec) (i : Nat) (p : Pixel), d.channels = 3 →
    d.pixWrite i p = { d with pix := Memory.writeBytes d.pix (i * 3) [p.r, p.g, p.b] })
  ∧ ∀ (d : Dec) (i : Nat) (p : Pixel), d.channels = 4 →
    d.pixWrite i p = { d with pix := Memory.writeBytes d.pix (i * 4) [p.r, p.g, p.b, p.a] }

/-! ### The six chunks -/

/-- R170: RGB. The pixel takes `prev`'s alpha; cache, `prev`, one pixel of output, `pos` and `pc` change and nothing
else; a chunk cut short raises TruncatedInput instead. -/
def Obligations.RgbChunk : Prop :=
  ∀ (r g b : Byte) (s : State), s.dec.phase = .busy → s.dec.pos < s.dec.npix →
    encode (.rgb r g b) = [0xFE, r, g, b]
    ∧ (s.dec.pc + 4 ≤ s.dec.inlen → exec (.rgb r g b) s =
        let p : Pixel := ⟨r, g, b, s.dec.hist.prev.a⟩
        .next { s with
          dec := { s.dec with
            hist := ⟨s.dec.hist.cache.set (hash p).toNat p (hash p).isLt, p⟩
            pix := Memory.writeBytes s.dec.pix (s.dec.pos * pixelSize s.dec.channels) (pixelBytes s.dec.channels p)
            pos := s.dec.pos + 1
            pc := s.dec.pc + 4 } })
    ∧ (s.dec.inlen < s.dec.pc + 4 → exec (.rgb r g b) s = .next (raise .dec .truncatedInput s))

/-- R171: RGBA. No register is read to form the pixel. -/
def Obligations.RgbaChunk : Prop :=
  ∀ (r g b a : Byte) (s : State), s.dec.phase = .busy → s.dec.pos < s.dec.npix →
    encode (.rgba r g b a) = [0xFF, r, g, b, a]
    ∧ (s.dec.pc + 5 ≤ s.dec.inlen → exec (.rgba r g b a) s =
        let p : Pixel := ⟨r, g, b, a⟩
        .next { s with
          dec := { s.dec with
            hist := ⟨s.dec.hist.cache.set (hash p).toNat p (hash p).isLt, p⟩
            pix := Memory.writeBytes s.dec.pix (s.dec.pos * pixelSize s.dec.channels) (pixelBytes s.dec.channels p)
            pos := s.dec.pos + 1
            pc := s.dec.pc + 5 } })
    ∧ (s.dec.inlen < s.dec.pc + 5 → exec (.rgba r g b a) s = .next (raise .dec .truncatedInput s))

/-- R172: INDEX. The entry is produced and becomes `prev`, and the cache is not written: the spec's own resolution of
conflict C1, decision D19 (log 19). -/
def Obligations.IndexChunk : Prop :=
  ∀ (k : BitVec 6) (s : State), s.dec.phase = .busy → s.dec.pos < s.dec.npix →
    encode (.index k) = [0b00#2 ++ k]
    ∧ (s.dec.pc + 1 ≤ s.dec.inlen → exec (.index k) s =
        let p : Pixel := s.dec.hist.cache[k.toNat]'(k.isLt)
        .next { s with
          dec := { s.dec with
            hist := ⟨s.dec.hist.cache, p⟩
            pix := Memory.writeBytes s.dec.pix (s.dec.pos * pixelSize s.dec.channels) (pixelBytes s.dec.channels p)
            pos := s.dec.pos + 1
            pc := s.dec.pc + 1 } })
    ∧ (s.dec.inlen < s.dec.pc + 1 → exec (.index k) s = .next (raise .dec .truncatedInput s))

/-- R173: DIFF. Each channel moves by its field minus 2, modulo 256; alpha is kept. -/
def Obligations.DiffChunk : Prop :=
  ∀ (fr fg fb : BitVec 2) (s : State), s.dec.phase = .busy → s.dec.pos < s.dec.npix →
    encode (.diff fr fg fb) = [0b01#2 ++ fr ++ fg ++ fb]
    ∧ (s.dec.pc + 1 ≤ s.dec.inlen → exec (.diff fr fg fb) s =
        let q := s.dec.hist.prev
        let p : Pixel :=
          ⟨BitVec.ofInt 8 (q.r.toNat + ((fr.toNat : Int) - 2)), BitVec.ofInt 8 (q.g.toNat + ((fg.toNat : Int) - 2)),
           BitVec.ofInt 8 (q.b.toNat + ((fb.toNat : Int) - 2)), q.a⟩
        .next { s with
          dec := { s.dec with
            hist := ⟨s.dec.hist.cache.set (hash p).toNat p (hash p).isLt, p⟩
            pix := Memory.writeBytes s.dec.pix (s.dec.pos * pixelSize s.dec.channels) (pixelBytes s.dec.channels p)
            pos := s.dec.pos + 1
            pc := s.dec.pc + 1 } })
    ∧ (s.dec.inlen < s.dec.pc + 1 → exec (.diff fr fg fb) s = .next (raise .dec .truncatedInput s))

/-- R174: LUMA. Green moves by its field minus 32; red and blue by that plus their nibble minus 8, modulo 256. -/
def Obligations.LumaChunk : Prop :=
  ∀ (fgm : BitVec 6) (frg fbg : BitVec 4) (s : State), s.dec.phase = .busy → s.dec.pos < s.dec.npix →
    encode (.luma fgm frg fbg) = [0b10#2 ++ fgm, frg ++ fbg]
    ∧ (s.dec.pc + 2 ≤ s.dec.inlen → exec (.luma fgm frg fbg) s =
        let q := s.dec.hist.prev
        let dg : Int := (fgm.toNat : Int) - 32
        let dr : Int := dg + frg.toNat - 8
        let db : Int := dg + fbg.toNat - 8
        let p : Pixel :=
          ⟨BitVec.ofInt 8 (q.r.toNat + dr), BitVec.ofInt 8 (q.g.toNat + dg), BitVec.ofInt 8 (q.b.toNat + db), q.a⟩
        .next { s with
          dec := { s.dec with
            hist := ⟨s.dec.hist.cache.set (hash p).toNat p (hash p).isLt, p⟩
            pix := Memory.writeBytes s.dec.pix (s.dec.pos * pixelSize s.dec.channels) (pixelBytes s.dec.channels p)
            pos := s.dec.pos + 1
            pc := s.dec.pc + 2 } })
    ∧ (s.dec.inlen < s.dec.pc + 2 → exec (.luma fgm frg fbg) s = .next (raise .dec .truncatedInput s))

/-- R175: RUN, with the spec's clamp D10 (log 17). `min(n, npix - pos)` copies of `prev` are written, every other byte
reads as before, `pos` and `pc` move, and nothing else changes. -/
def Obligations.RunChunk : Prop :=
  ∀ (frun : BitVec 6) (s : State), s.dec.phase = .busy → s.dec.pos < s.dec.npix →
    encode (.run frun) = [0b11#2 ++ frun]
    ∧ (s.dec.pc + 1 ≤ s.dec.inlen →
      let m := min (frun.toNat + 1) (s.dec.npix - s.dec.pos)
      let size := pixelSize s.dec.channels
      ∃ pix, exec (.run frun) s
          = .next { s with dec := { s.dec with pix := pix, pos := s.dec.pos + m, pc := s.dec.pc + 1 } }
        ∧ (∀ j k, j < m → k < size →
            Memory.read pix ((s.dec.pos + j) * size + k) = (pixelBytes s.dec.channels s.dec.hist.prev)[k]?)
        ∧ ∀ a, a < s.dec.pos * size ∨ (s.dec.pos + m) * size ≤ a → Memory.read pix a = Memory.read s.dec.pix a)
    ∧ (s.dec.inlen < s.dec.pc + 1 → exec (.run frun) s = .next (raise .dec .truncatedInput s))

/-- The frame of the five chunks of one pixel: RGB, RGBA, INDEX, DIFF and LUMA. What they store is the new `prev`, at
`pos`, and every byte outside reads as before; every register but `cache`, `prev`, `pos` and `pc` keeps its value; the
cache keeps every entry but the one at the new pixel's hash; the encoder is untouched (R53, R55, R172, R176). -/
def Obligations.OnePixelChunkFrame : Prop :=
  ∀ (i : Instr) (s t : State), i.place = .chunk → (∀ frun, i ≠ .run frun) →
    s.dec.pc + i.size ≤ s.dec.inlen → exec i s = .next t →
    t.enc = s.enc ∧ t.turn = s.turn
    ∧ (t.dec.phase = s.dec.phase ∧ t.dec.err = s.dec.err ∧ t.dec.width = s.dec.width ∧ t.dec.height = s.dec.height
      ∧ t.dec.channels = s.dec.channels ∧ t.dec.colorspace = s.dec.colorspace ∧ t.dec.npix = s.dec.npix
      ∧ t.dec.inlen = s.dec.inlen ∧ t.dec.str = s.dec.str ∧ t.dec.host = s.dec.host ∧ t.dec.free = s.dec.free)
    ∧ t.dec.pos = s.dec.pos + 1 ∧ t.dec.pc = s.dec.pc + i.size
    ∧ (∀ k, k ≠ hash t.dec.hist.prev → t.dec.hist.lookup k = s.dec.hist.lookup k)
    ∧ (∀ k, k < pixelSize s.dec.channels →
        Memory.read t.dec.pix (s.dec.pos * pixelSize s.dec.channels + k)
          = (pixelBytes s.dec.channels t.dec.hist.prev)[k]?)
    ∧ ∀ a, a < s.dec.pos * pixelSize s.dec.channels
        ∨ s.dec.pos * pixelSize s.dec.channels + pixelSize s.dec.channels ≤ a →
      Memory.read t.dec.pix a = Memory.read s.dec.pix a

/-- Every RUN chunk of a stream stands for at least one pixel and at most 62, so `pos` moves by 1 to 62 in every chunk
step that does not raise, and never past `npix` (R31, R179). -/
def Obligations.ChunkMakesProgress : Prop :=
  ∀ (i : Instr) (s t : State), i.place = .chunk → i.WellFormed = true → exec i s = .next t →
    (t.dec.phase = .error ∧ t.dec.err = .truncatedInput)
    ∨ (t.dec.phase = .busy ∧ s.dec.pos + 1 ≤ t.dec.pos ∧ t.dec.pos ≤ s.dec.pos + 62 ∧ t.dec.pos ≤ t.dec.npix)

/-! ### The framing items -/

/-- R163: a header that passes the checks begins a decode: every register of the History, `pos`, `pc`, the header
registers, `err` and `phase` take the values of R163, and the input space, `inlen` and the encoder are untouched. What
the output space holds before it is written is not said (R40). -/
def Obligations.HeaderBeginsDecode : Prop :=
  ∀ (w h : BitVec 32) (c cs : Byte) (s : State), s.dec.phase ≠ .busy → 14 ≤ s.dec.inlen → w ≠ 0 → h ≠ 0 →
    (c = 3 ∨ c = 4) →
    ∃ pix, exec (.header w h c cs) s = .next { s with
      dec := { s.dec with
        width := w
        height := h
        channels := c
        colorspace := cs
        npix := w.toNat * h.toNat
        hist := ⟨Vector.replicate 64 ⟨0, 0, 0, 0⟩, ⟨0, 0, 0, 255⟩⟩
        pos := 0
        pc := 14
        err := .none
        pix := pix
        phase := .busy } }

/-- R161 and R162 on a decoded header, in the order of decision D6 (log 14): the length comes first, then a zero size
or a channel count that is neither 3 nor 4 is InvalidHeader. -/
def Obligations.HeaderChecks : Prop :=
  ∀ (w h : BitVec 32) (c cs : Byte) (s : State), s.dec.phase ≠ .busy →
    (s.dec.inlen < 14 → exec (.header w h c cs) s = .next (raise .dec .truncatedInput s))
    ∧ (14 ≤ s.dec.inlen → w = 0 ∨ h = 0 ∨ (c ≠ 3 ∧ c ≠ 4) →
        exec (.header w h c cs) s = .next (raise .dec .invalidHeader s))

/-- R161 and R162 on the bytes of the stream, the whole of DEC.START's validation: the length before any byte (decision
D6, log 14), then the magic, then the sizes and the channel count; a colorspace byte is not looked at (D7, log 15). -/
def Obligations.DecStartValidates : Prop :=
  ∀ (s : State) (n : Nat) (rest : List DecMove) (m w h : List Byte) (c cs : Byte), s.dec.phase ≠ .busy →
    s.dec.host = .start n :: rest →
    (n < 14 → decStep s = .next (raise .dec .truncatedInput (s.withDec (s.dec.latch n rest))))
    ∧ (14 ≤ n → m.length = 4 → w.length = 4 → h.length = 4 →
        Memory.readBytes s.dec.str 0 14 = .ok (m ++ w ++ h ++ [c, cs]) →
        (m ≠ [0x71, 0x6F, 0x69, 0x66] ∨ w = [0, 0, 0, 0] ∨ h = [0, 0, 0, 0] ∨ (c ≠ 3 ∧ c ≠ 4) →
          decStep s = .next (raise .dec .invalidHeader (s.withDec (s.dec.latch n rest))))
        ∧ (m = [0x71, 0x6F, 0x69, 0x66] → w ≠ [0, 0, 0, 0] → h ≠ [0, 0, 0, 0] → c = 3 ∨ c = 4 →
          ∃ t, decStep s = .next t ∧ t.dec.phase = .busy ∧ t.dec.err = .none ∧ t.dec.colorspace = cs))

/-- END completes: with every pixel produced and eight bytes left, `phase` becomes DONE and nothing else changes
(R177). -/
def Obligations.EndMarkerFinishes : Prop :=
  ∀ s : State, s.dec.phase = .busy → s.dec.pos = s.dec.npix → s.dec.pc + 8 ≤ s.dec.inlen →
    exec .endMarker s = .next { s with dec := { s.dec with phase := .done } }

/-- R177, the whole step, with decisions D8 and D9 (log 16): TruncatedInput when fewer than eight bytes remain or they
are not the marker, otherwise DONE with `pc` not moved; bytes after the marker do not matter. -/
def Obligations.FinishChecksMarker : Prop :=
  ∀ (s : State) (bytes : List Byte), s.dec.phase = .busy → s.dec.pos = s.dec.npix →
    (s.dec.inlen < s.dec.pc + 8 → decStep s = .next (raise .dec .truncatedInput s))
    ∧ (s.dec.pc + 8 ≤ s.dec.inlen → Memory.readBytes s.dec.str s.dec.pc 8 = .ok bytes →
        (bytes ≠ [0, 0, 0, 0, 0, 0, 0, 1] → decStep s = .next (raise .dec .truncatedInput s))
        ∧ (bytes = [0, 0, 0, 0, 0, 0, 0, 1] → decStep s = .next { s with dec := { s.dec with phase := .done } }))

/-- Where an instruction is not enabled it stops with the model's fault and has no effect: a chunk outside BUSY or
with no pixel missing (R164), END outside BUSY or with a pixel missing (R177), HEADER while BUSY (U10; log 7). -/
def Obligations.NotEnabledStops : Prop :=
  (∀ (i : Instr) (s : State), i.place = .chunk → ¬(s.dec.phase = .busy ∧ s.dec.pos < s.dec.npix) →
    exec i s = .fault (.notEnabled .dec))
  ∧ (∀ s : State, ¬(s.dec.phase = .busy ∧ s.dec.pos = s.dec.npix) → exec .endMarker s = .fault (.notEnabled .dec))
  ∧ ∀ (w h : BitVec 32) (c cs : Byte) (s : State), s.dec.phase = .busy →
    exec (.header w h c cs) s = .fault (.startWhileBusy .dec)

/-! ### Errors -/

/-- R200 and R202: raising sets `phase` and `err` of the agent; the other agent, the input space and the host's moves are
not affected. What the other registers and the output space hold is not said (R69, R201). -/
def Obligations.RaiseSetsPhaseAndErr : Prop :=
  ∀ (r : Err) (s : State),
    ((raise .enc r s).enc.phase = .error ∧ (raise .enc r s).enc.err = r ∧ (raise .enc r s).enc.pix = s.enc.pix
      ∧ (raise .enc r s).enc.host = s.enc.host ∧ (raise .enc r s).dec = s.dec)
    ∧ ((raise .dec r s).dec.phase = .error ∧ (raise .dec r s).dec.err = r ∧ (raise .dec r s).dec.str = s.dec.str
      ∧ (raise .dec r s).dec.host = s.dec.host ∧ (raise .dec r s).enc = s.enc)

/-- R202 and R33: an agent leaves ERROR, DONE or IDLE only by a START of its own. -/
def Obligations.OnlyStartLeavesRest : Prop :=
  ∀ s t : State, step s = .next t →
    (s.enc.phase ≠ .busy → t.enc.phase ≠ s.enc.phase → ∃ w h c cs n rest, s.enc.host = .start w h c cs n :: rest)
    ∧ (s.dec.phase ≠ .busy → t.dec.phase ≠ s.dec.phase → ∃ n rest, s.dec.host = .start n :: rest)

/-! ### The step -/

/-- A step runs the decoded chunk: when it is the decoder's move, pixels are missing, and the bytes at `pc`, all inside
the stream, decode to a chunk, the step is its execution, after which it is the encoder's turn (R164, R166; log 6). -/
def Obligations.StepRunsDecodedChunk : Prop :=
  ∀ (s : State) (i : Instr) (bytes : List Byte), mover s = some .dec → s.dec.phase = .busy → s.dec.pos < s.dec.npix →
    s.dec.pc + i.size ≤ s.dec.inlen → Memory.readBytes s.dec.str s.dec.pc i.size = .ok bytes →
    decode .chunk bytes = .ok (i, []) → step s = onNext (fun t => t.withTurn .enc) (exec i s)

/-- A step runs the decoded header: when it is the decoder's move, it is not BUSY and the host's next move is DEC.START,
the step latches `inlen`, and executes what the 14 bytes at offset 0 decode to (R160). -/
def Obligations.StepRunsDecodedHeader : Prop :=
  ∀ (s : State) (i : Instr) (n : Nat) (rest : List DecMove) (bytes : List Byte), mover s = some .dec →
    s.dec.phase ≠ .busy → s.dec.host = .start n :: rest → 14 ≤ n → Memory.readBytes s.dec.str 0 14 = .ok bytes →
    decode .start bytes = .ok (i, []) →
    step s = onNext (fun t => t.withTurn .enc) (exec i { s with dec := { s.dec with inlen := n, host := rest } })

/-- A step runs the decoded end marker: when it is the decoder's move, no pixel is missing and the eight bytes at `pc`
are the marker (R177). -/
def Obligations.StepRunsEndMarker : Prop :=
  ∀ (s : State) (bytes : List Byte), mover s = some .dec → s.dec.phase = .busy → s.dec.pos = s.dec.npix →
    s.dec.pc + 8 ≤ s.dec.inlen → Memory.readBytes s.dec.str s.dec.pc 8 = .ok bytes →
    decode .finish bytes = .ok (.endMarker, []) → step s = onNext (fun t => t.withTurn .enc) (exec .endMarker s)

/-- A step runs the encoder's operations: when it is the encoder's move, BUSY steps are ENC.PIXEL while pixels are left
(R133) and ENC.FINISH after the last (R143), and outside BUSY the host's ENC.START is executed with its arguments
(R130). -/
def Obligations.StepRunsEncoder : Prop :=
  ∀ s : State, mover s = some .enc →
    (s.enc.phase = .busy → s.enc.pos < s.enc.npix → step s = onNext (fun t => t.withTurn .dec) (encPixel s))
    ∧ (s.enc.phase = .busy → s.enc.pos = s.enc.npix → step s = onNext (fun t => t.withTurn .dec) (encFinish s))
    ∧ ∀ (w h : BitVec 32) (c cs : Byte) (n : Nat) (rest : List EncMove), s.enc.phase ≠ .busy →
      s.enc.host = .start w h c cs n :: rest →
      step s = onNext (fun t => t.withTurn .dec)
        (encStart w h c cs n { s with enc := { s.enc with host := rest } })

/-- No step is refused, and the only way a step stops is at a byte of an input space that nothing has written: what an
instruction needs in order to be enabled always holds when `step` executes it. That an unwritten byte stops the model is
the model's choice (log 2). -/
def Obligations.StepStopsOnlyAtUnwrittenBytes : Prop :=
  ∀ s : State, (∀ r, step s ≠ .refused r)
    ∧ ∀ f, step s = .fault f → ∃ a, f = .unwrittenByte .encPix a ∨ f = .unwrittenByte .decStr a

/-- A step never stops while both agents' announced inputs are placed: a BUSY agent whose buffer the host has placed, and
the other one resting or BUSY in the same way, always have a next state (R52, R232, R233). -/
def Obligations.LoadedBlockNeverStops : Prop :=
  ∀ s : State, s.Inv → (s.enc.phase = .busy ∧ s.enc.Loaded ∨ s.enc.Resting) →
    (s.dec.phase = .busy ∧ s.dec.Loaded ∨ s.dec.Resting) → ∃ t, step s = .next t

/-- R20 and R21: neither agent reads or writes anything of the other. A step of one leaves the other as it is, does not
depend on it, and the two agents' steps commute. -/
def Obligations.AgentsDoNotInterfere : Prop :=
  (∀ s t : State, decStep s = .next t → t.enc = s.enc ∧ ∀ e, decStep (s.withEnc e) = .next (t.withEnc e))
  ∧ (∀ s t : State, encStep s = .next t → t.dec = s.dec ∧ ∀ d, encStep (s.withDec d) = .next (t.withDec d))
  ∧ ∀ s t u : State, encStep s = .next t → decStep s = .next u →
    ∃ v, decStep t = .next v ∧ encStep u = .next v

/-- R67: while an agent is BUSY its input space does not change, so a stream cannot modify itself; and no move of the
host is taken, the model's form of the host's duty (log 5). -/
def Obligations.InputsStayWhileBusy : Prop :=
  ∀ s t : State, step s = .next t →
    (s.enc.phase = .busy → t.enc.pix = s.enc.pix ∧ t.enc.host = s.enc.host)
    ∧ (s.dec.phase = .busy → t.dec.str = s.dec.str ∧ t.dec.host = s.dec.host)

/-! ### Reset and invariants -/

/-- R230 and R40: after hardware reset both agents are IDLE and `err` is 0. -/
def Obligations.ResetIsIdle : Prop :=
  State.reset.enc.phase = .idle ∧ State.reset.enc.err.code = 0 ∧ State.reset.dec.phase = .idle
    ∧ State.reset.dec.err.code = 0

/-- The invariant holds at reset. -/
def Obligations.ResetMeetsInvariant : Prop := State.reset.Inv

/-- Every step keeps the invariant, from every state that meets it: canonical memories, `err` non-zero exactly in ERROR
and only with the agent's own codes (R34), and, while BUSY, the ranges of `run`, `pos`, `pc`, the header registers and
R25's cache invariant. -/
def Obligations.StepKeepsInvariant : Prop := ∀ s t : State, s.Inv → step s = .next t → t.Inv

/-- R231 and R250: nothing of an earlier operation survives START. Two decoders that agree on the input space, the host's
moves and the model's own counter, and whatever their other registers hold, are equal after START; likewise two
encoders. Equality of the whole agent also covers what the spec leaves unspecified, by the model's choice: after a START
that fails, every register but `phase` and `err` and the output space's bytes are free values drawn by the equal counters
(R69, R201; log 3); after one that passes, `outlen` is such a value and the output space holds nothing of an earlier
operation (R40; log 4). -/
def Obligations.StartForgetsEarlierOperations : Prop :=
  (∀ (s t s' : State) (n : Nat) (rest : List DecMove), s.dec.phase ≠ .busy → t.dec.phase ≠ .busy →
    s.dec.host = .start n :: rest → t.dec.host = s.dec.host → t.dec.str = s.dec.str → t.dec.free = s.dec.free →
    decStep s = .next s' → ∃ t', decStep t = .next t' ∧ t'.dec = s'.dec)
  ∧ ∀ (s t s' : State) (w h : BitVec 32) (c cs : Byte) (n : Nat) (rest : List EncMove), s.enc.phase ≠ .busy →
    t.enc.phase ≠ .busy → s.enc.host = .start w h c cs n :: rest → t.enc.host = s.enc.host →
    t.enc.pix = s.enc.pix → t.enc.free = s.enc.free → encStep s = .next s' →
    ∃ t', encStep t = .next t' ∧ t'.enc = s'.enc

/-- R179: the decoder is total. A BUSY decoder whose stream is placed reaches DONE, or ERROR with TruncatedInput, within
one step per missing pixel and one for the marker, the encoder resting. -/
def Obligations.DecoderAlwaysEnds : Prop :=
  ∀ s : State, s.Inv → s.dec.phase = .busy → s.dec.Loaded → s.enc.Resting →
    ∃ k t, k ≤ s.dec.npix - s.dec.pos + 1 ∧ Sys2Proof.core.run k s = .next t
      ∧ (t.dec.phase = .done ∨ (t.dec.phase = .error ∧ t.dec.err = .truncatedInput))

/-! ### The encoder -/

/-- R131: the three checks of ENC.START, in the order of decision D5 (log 14); each failure raises its error. -/
def Obligations.EncStartChecks : Prop :=
  ∀ (w h : BitVec 32) (c cs : Byte) (n : Nat) (s : State), s.enc.phase ≠ .busy →
    (w = 0 ∨ h = 0 → encStart w h c cs n s = .next (raise .enc .invalidDimensions s))
    ∧ (w ≠ 0 ∧ h ≠ 0 → c ≠ 3 ∧ c ≠ 4 → encStart w h c cs n s = .next (raise .enc .invalidChannelCount s))
    ∧ (w ≠ 0 ∧ h ≠ 0 → c = 3 ∨ c = 4 → n ≠ w.toNat * h.toNat * c.toNat →
        encStart w h c cs n s = .next (raise .enc .bufferSizeMismatch s))

/-- R132 (the magic's codes are general knowledge, log 18): a START that passes begins an encode: the History's start
values, the counters, the latched arguments, and the header as the first 14 bytes of the output. What `outlen` holds
until DONE is not said (R40). -/
def Obligations.EncStartBeginsEncode : Prop :=
  ∀ (w h : BitVec 32) (c cs : Byte) (s : State), s.enc.phase ≠ .busy → w ≠ 0 → h ≠ 0 → (c = 3 ∨ c = 4) →
    ∃ t, encStart w h c cs (w.toNat * h.toNat * c.toNat) s = .next t ∧ t.dec = s.dec ∧ t.turn = s.turn
      ∧ t.enc.phase = .busy ∧ t.enc.err = .none
      ∧ t.enc.hist = ⟨Vector.replicate 64 ⟨0, 0, 0, 0⟩, ⟨0, 0, 0, 255⟩⟩
      ∧ t.enc.run = 0 ∧ t.enc.pos = 0 ∧ t.enc.wp = 14 ∧ t.enc.npix = w.toNat * h.toNat
      ∧ t.enc.width = w ∧ t.enc.height = h ∧ t.enc.channels = c ∧ t.enc.colorspace = cs
      ∧ t.enc.pixlen = w.toNat * h.toNat * c.toNat ∧ t.enc.pix = s.enc.pix
      ∧ Memory.readBytes t.enc.str 0 14 = .ok ([0x71, 0x6F, 0x69, 0x66] ++ be32 w ++ be32 h ++ [c] ++ [cs])

/-- The bytes R134 emits for a pixel that differs from `prev`, as numbers, in its decision order. -/
def Sys2Proof.Machine.ruleChunkBytes (h : History) (p : Pixel) : List Int :=
  let dr := sdelta p.r h.prev.r
  let dg := sdelta p.g h.prev.g
  let db := sdelta p.b h.prev.b
  if h.cache[(hash p).toNat]'((hash p).isLt) = p then [((hash p).toNat : Int)]
  else if p.a = h.prev.a ∧ (-2 ≤ dr ∧ dr ≤ 1) ∧ (-2 ≤ dg ∧ dg ≤ 1) ∧ (-2 ≤ db ∧ db ≤ 1) then
    [0x40 + (dr + 2) * 16 + (dg + 2) * 4 + (db + 2)]
  else if p.a = h.prev.a ∧ (-32 ≤ dg ∧ dg ≤ 31) ∧ (-8 ≤ dr - dg ∧ dr - dg ≤ 7) ∧ (-8 ≤ db - dg ∧ db - dg ≤ 7) then
    [0x80 + (dg + 32), (dr - dg + 8) * 16 + (db - dg + 8)]
  else if p.a = h.prev.a then [0xFE, (p.r.toNat : Int), (p.g.toNat : Int), (p.b.toNat : Int)]
  else [0xFF, (p.r.toNat : Int), (p.g.toNat : Int), (p.b.toNat : Int), (p.a.toNat : Int)]

/-- R134 with R135 to R142: one ENC.PIXEL step. The bytes emitted at `wp` are those of the rule's decision order; a
pixel equal to `prev` only counts, and the 62nd emits `0xFD`; any other flushes the pending run first; `prev` becomes
the pixel, and the cache is written except on a hit. Nothing else changes. That `prev` becomes the pixel after a hit
too is the spec's own resolution of conflict C1, decision D19 (log 19); the byte order and the field places are its
decisions D12 and D13 (log 18). -/
def Obligations.EncPixelDecision : Prop :=
  ∀ (s : State) (p : Pixel), s.enc.phase = .busy → s.enc.pos < s.enc.npix → s.enc.run ≤ 61 →
    s.enc.pixRead s.enc.pos = .ok p →
    ∃ bytes : List Byte, encPixel s = .next { s with
        enc := { s.enc with
          str := Memory.writeBytes s.enc.str s.enc.wp bytes
          wp := s.enc.wp + bytes.length
          pos := s.enc.pos + 1
          run := if p = s.enc.hist.prev ∧ s.enc.run + 1 ≠ 62 then s.enc.run + 1 else 0
          hist :=
            if p = s.enc.hist.prev then s.enc.hist
            else if s.enc.hist.cache[(hash p).toNat]'((hash p).isLt) = p then ⟨s.enc.hist.cache, p⟩
            else ⟨s.enc.hist.cache.set (hash p).toNat p (hash p).isLt, p⟩ } }
      ∧ (bytes.map fun b => (b.toNat : Int)) =
        if p = s.enc.hist.prev then (if s.enc.run + 1 = 62 then [0xC0 + 61] else [])
        else (if 0 < s.enc.run then [0xC0 + ((s.enc.run : Int) - 1)] else []) ++ ruleChunkBytes s.enc.hist p

/-- R143: ENC.FINISH flushes the pending run, writes the marker, latches `outlen` and is DONE; nothing else changes. -/
def Obligations.EncFinishWritesMarker : Prop :=
  ∀ s : State, s.enc.phase = .busy → s.enc.pos = s.enc.npix → s.enc.run ≤ 61 →
    ∃ bytes : List Byte, encFinish s = .next { s with
        enc := { s.enc with
          str := Memory.writeBytes s.enc.str s.enc.wp bytes
          wp := s.enc.wp + bytes.length
          run := 0
          outlen := s.enc.wp + bytes.length
          phase := .done } }
      ∧ (bytes.map fun b => (b.toNat : Int)) =
        (if 0 < s.enc.run then [0xC0 + ((s.enc.run : Int) - 1)] else []) ++ [0, 0, 0, 0, 0, 0, 0, 1]

/-- R145: with opaque pixels, as 3 channels give, and an opaque `prev`, the encoder never emits RGBA, and an INDEX never
names a never-written entry. -/
def Obligations.OpaquePixelsNeedNoAlpha : Prop :=
  ∀ (h : History) (run : Nat) (p : Pixel), p.a = 255 → h.prev.a = 255 →
    ∀ i ∈ (pixelDecision h run p).1,
      (∀ r g b a, i ≠ .rgba r g b a) ∧ ∀ k, i = .index k → h.lookup k ≠ ⟨0, 0, 0, 0⟩

/-- R92: forms the encoder never emits for a pixel: DIFF with all deltas 0, a LUMA that would fit DIFF, an RGB that would
fit DIFF or LUMA, an RGBA whose alpha equals `prev`'s, an INDEX of a (0,0,0,0) entry other than entry 0, and any chunk
but RUN for a pixel equal to `prev`; and, in a whole chunk stream, a RUN shorter than 62 followed by another RUN. -/
def Obligations.EncoderNeverEmits : Prop :=
  (∀ (h : History) (run : Nat) (p : Pixel), ∀ i ∈ (pixelDecision h run p).1,
    i ≠ .diff (diffField 0) (diffField 0) (diffField 0)
    ∧ (∀ fgm frg fbg, i = .luma fgm frg fbg → fitsDiff p h.prev = false)
    ∧ (∀ r g b, i = .rgb r g b → fitsDiff p h.prev = false ∧ fitsLuma p h.prev = false)
    ∧ (∀ r g b a, i = .rgba r g b a → a ≠ h.prev.a)
    ∧ (∀ k, i = .index k → k ≠ 0 → h.lookup k ≠ ⟨0, 0, 0, 0⟩)
    ∧ (p = h.prev → ∃ frun, i = .run frun))
  ∧ ∀ (h : History) (run : Nat) (ps : List Pixel) (front back : List Instr) (a b : BitVec 6), run ≤ 61 →
    encodeLoop h run ps = front ++ .run a :: .run b :: back → a = 61

/-- R147: an image of 200 identical pixels yields four RUN chunks. In the colour of the initial `prev` they are 62, 62,
62, 14 and the whole chunk stream; in any other the first pixel has its own chunk, no RUN, and the rest are 62, 62, 62,
13. -/
def Obligations.RunCap : Prop :=
  ∀ p : Pixel,
    if p = ⟨0, 0, 0, 255⟩ then
      encodeLoop History.start 0 (List.replicate 200 p) = [.run 61, .run 61, .run 61, .run 13]
    else ∃ i, (∀ frun, i ≠ .run frun)
      ∧ encodeLoop History.start 0 (List.replicate 200 p) = [i, .run 61, .run 61, .run 61, .run 12]

/-- R62: bounds of the encoder's output, `ceil(npix/62)` written as `(npix + 61) / 62`. -/
def Obligations.StreamLengthBounds : Prop :=
  ∀ (pix : List Byte) (w h : BitVec 32) (c cs : Byte) (out : List Byte), encodeImage pix w h c cs = .ok out →
    14 + (w.toNat * h.toNat + 61) / 62 + 8 ≤ out.length
    ∧ (c = 4 → out.length ≤ 14 + 5 * (w.toNat * h.toNat) + 8)
    ∧ (c = 3 → out.length ≤ 14 + 4 * (w.toNat * h.toNat) + 8)

/-! ### Headline results -/

/-- R121, the lock-step law, one pixel at a time: a decoder whose History equals the encoder's, executing the chunks
the encoder emits for the next pixel, keeps its History equal, produces exactly the pixels no longer pending, and is
behind by the pending run. -/
def Obligations.LockStep : Prop :=
  ∀ (s : State) (run : Nat) (p : Pixel), s.dec.phase = .busy → run ≤ 61 → s.dec.pos + run + 1 ≤ s.dec.npix →
    s.dec.pc + (encodeAll (pixelDecision s.dec.hist run p).1).length ≤ s.dec.inlen →
    ∃ t, execAll (pixelDecision s.dec.hist run p).1 s = .next t
      ∧ t.enc = s.enc ∧ t.dec.phase = .busy
      ∧ t.dec.hist = (pixelDecision s.dec.hist run p).2.1
      ∧ t.dec.pos + (pixelDecision s.dec.hist run p).2.2 = s.dec.pos + run + 1
      ∧ t.dec.pc = s.dec.pc + (encodeAll (pixelDecision s.dec.hist run p).1).length
      ∧ t.dec.pix = Memory.writeBytes s.dec.pix (s.dec.pos * pixelSize s.dec.channels)
          (joinPixels s.dec.channels
            ((List.replicate run s.dec.hist.prev ++ [p]).take (run + 1 - (pixelDecision s.dec.hist run p).2.2)))

/-- R146, the round trip: whatever image the encoder accepts, decoding its stream gives the image back. -/
def Obligations.RoundTrip : Prop :=
  ∀ (pix : List Byte) (w h : BitVec 32) (c cs : Byte) (out : List Byte), encodeImage pix w h c cs = .ok out →
    decodeStream out = .ok { pixels := pix, width := w, height := h, channels := c, colorspace := cs }

/-- R144: the encoder's steps are the one function. After the host has placed the pixels and issued ENC.START, with the
decoder resting, `npix + 2` steps end in DONE with the function's stream, or one step ends in ERROR with its error. -/
def Obligations.EncoderIsEncodeFunction : Prop :=
  ∀ (s : State) (pix : List Byte) (w h : BitVec 32) (c cs : Byte), s.enc.phase ≠ .busy →
    s.enc.host = [.start w h c cs pix.length] → Memory.readBytes s.enc.pix 0 pix.length = .ok pix → s.dec.Resting →
    (∀ out, encodeImage pix w h c cs = .ok out →
      ∃ t, Sys2Proof.core.run (w.toNat * h.toNat + 2) s = .next t ∧ t.enc.phase = .done ∧ t.enc.result = some out
        ∧ t.dec = s.dec)
    ∧ ∀ r, encodeImage pix w h c cs = .error r →
      ∃ t, Sys2Proof.core.run 1 s = .next t ∧ t.enc.phase = .error ∧ t.enc.err = r ∧ t.dec = s.dec

/-- R180: the decoder's steps are the one function. After the host has placed the stream and issued DEC.START, with the
encoder resting, the decoder ends in DONE with the function's image, within `npix + 2` steps, or in ERROR with its
error. -/
def Obligations.DecoderIsDecodeFunction : Prop :=
  ∀ (s : State) (bytes : List Byte), s.dec.phase ≠ .busy → s.dec.host = [.start bytes.length] →
    Memory.readBytes s.dec.str 0 bytes.length = .ok bytes → s.enc.Resting →
    (∀ im, decodeStream bytes = .ok im →
      ∃ k t, 1 ≤ k ∧ k ≤ im.width.toNat * im.height.toNat + 2 ∧ Sys2Proof.core.run k s = .next t ∧ t.dec.phase = .done
        ∧ t.dec.result = some im.pixels ∧ t.dec.width = im.width ∧ t.dec.height = im.height
        ∧ t.dec.channels = im.channels ∧ t.dec.colorspace = im.colorspace ∧ t.enc = s.enc)
    ∧ ∀ r, decodeStream bytes = .error r →
      ∃ k t, 1 ≤ k ∧ Sys2Proof.core.run k s = .next t ∧ t.dec.phase = .error ∧ t.dec.err = r ∧ t.enc = s.enc
end

