-- ==== Sys2Proof/Laws/Arithmetic.lean ====
section
/-! SUPPORT. The block's arithmetic as bit-vector arithmetic, and the ranges of the biased fields. -/

namespace Sys2Proof.Machine

/-- `s8` is the two's complement reading of a byte (R11). -/
theorem s8_eq_toInt (u : Byte) : s8 u = u.toInt := by
  rw [BitVec.toInt_eq_toNat_cond]
  unfold s8
  have := u.isLt
  split <;> split <;> omega

theorem wrap8_toNat_sub (c p : Byte) : wrap8 ((c.toNat : Int) - p.toNat) = c - p := by
  apply BitVec.eq_of_toNat_eq
  have h1 := c.isLt
  have h2 := p.isLt
  simp only [wrap8, BitVec.toNat_ofInt, BitVec.toNat_sub]
  omega

/-- `sdelta` is the bit-vector difference read as signed (R113). -/
theorem sdelta_eq (c p : Byte) : sdelta c p = (c - p).toInt := by
  rw [sdelta, wrap8_toNat_sub, s8_eq_toInt]

/-- `uadd` is bit-vector addition (R114). -/
theorem uadd_eq (p : Byte) (d : Int) : uadd p d = p + BitVec.ofInt 8 d := by
  apply BitVec.eq_of_toNat_eq
  simp only [uadd, wrap8, BitVec.toNat_ofInt, BitVec.toNat_add]
  omega

/-- The index of a Pixel as a number (R110). -/
theorem hash_toNat (p : Pixel) :
    (hash p).toNat = (p.r.toNat * 3 + p.g.toNat * 5 + p.b.toNat * 7 + p.a.toNat * 11) % 64 := by
  simp [hash]

theorem inRange_iff (lo hi x : Int) : inRange lo hi x = true ↔ lo ≤ x ∧ x ≤ hi := by simp [inRange]

/-- `fits_diff` as inequalities (R116). -/
theorem fitsDiff_iff (p prev : Pixel) : fitsDiff p prev = true ↔
    p.a = prev.a ∧ (-2 ≤ sdelta p.r prev.r ∧ sdelta p.r prev.r ≤ 1) ∧ (-2 ≤ sdelta p.g prev.g ∧ sdelta p.g prev.g ≤ 1)
      ∧ -2 ≤ sdelta p.b prev.b ∧ sdelta p.b prev.b ≤ 1 := by
  simp [fitsDiff, alphaSame, inRange_iff, and_assoc]

/-- `fits_luma` as inequalities (R116). -/
theorem fitsLuma_iff (p prev : Pixel) : fitsLuma p prev = true ↔
    p.a = prev.a ∧ (-32 ≤ sdelta p.g prev.g ∧ sdelta p.g prev.g ≤ 31)
      ∧ (-8 ≤ sdelta p.r prev.r - sdelta p.g prev.g ∧ sdelta p.r prev.r - sdelta p.g prev.g ≤ 7)
      ∧ -8 ≤ sdelta p.b prev.b - sdelta p.g prev.g ∧ sdelta p.b prev.b - sdelta p.g prev.g ≤ 7 := by
  simp [fitsLuma, alphaSame, inRange_iff, and_assoc]

theorem validChannels_iff (c : Byte) : validChannels c = true ↔ c = 3 ∨ c = 4 := by simp [validChannels]

/-- With an accepted channel count a Pixel takes `channels` bytes (R51). -/
theorem pixelSize_eq (c : Byte) (h : c = 3 ∨ c = 4) : pixelSize c = c.toNat := by
  rcases h with rfl | rfl <;> decide

theorem pixelSize_pos (c : Byte) : 0 < pixelSize c := by
  unfold pixelSize; split <;> omega

@[simp] theorem pixelBytes_length (c : Byte) (p : Pixel) : (pixelBytes c p).length = pixelSize c := by
  unfold pixelBytes pixelSize; split <;> rfl

end Sys2Proof.Machine
end

