-- ==== Sys2Proof/Laws/State.lean ====
section
/-! SUPPORT. One lemma per field per named update of the state, so that no proof unfolds a record update. -/

namespace Sys2Proof.Machine

variable (s : State) (e : Enc) (d : Dec) (a : Agent) (h : History) (p : Pixel)

@[simp] theorem withEnc_enc : (s.withEnc e).enc = e := rfl
@[simp] theorem withEnc_dec : (s.withEnc e).dec = s.dec := rfl
@[simp] theorem withEnc_turn : (s.withEnc e).turn = s.turn := rfl
@[simp] theorem withDec_enc : (s.withDec d).enc = s.enc := rfl
@[simp] theorem withDec_dec : (s.withDec d).dec = d := rfl
@[simp] theorem withDec_turn : (s.withDec d).turn = s.turn := rfl
@[simp] theorem withTurn_enc : (s.withTurn a).enc = s.enc := rfl
@[simp] theorem withTurn_dec : (s.withTurn a).dec = s.dec := rfl
@[simp] theorem withTurn_turn : (s.withTurn a).turn = a := rfl
@[simp] theorem withDec_withDec (d' : Dec) : (s.withDec d).withDec d' = s.withDec d' := rfl
@[simp] theorem withEnc_withEnc (e' : Enc) : (s.withEnc e).withEnc e' = s.withEnc e' := rfl

/-! ### History -/

@[simp] theorem update_prev : (h.update p).prev = h.prev := rfl
@[simp] theorem setPrev_prev : (h.setPrev p).prev = p := rfl
@[simp] theorem setPrev_cache : (h.setPrev p).cache = h.cache := rfl
@[simp] theorem setPrev_lookup (k : BitVec 6) : (h.setPrev p).lookup k = h.lookup k := rfl
@[simp] theorem record_prev : (h.record p).prev = p := rfl
@[simp] theorem record_cache : (h.record p).cache = (h.update p).cache := rfl
@[simp] theorem record_lookup (k : BitVec 6) : (h.record p).lookup k = (h.update p).lookup k := rfl
@[simp] theorem start_prev : History.start.prev = Config.startPixel := rfl

/-! ### Decoder updates -/

@[simp] theorem setHist_phase : (d.setHist h).phase = d.phase := rfl
@[simp] theorem setHist_err : (d.setHist h).err = d.err := rfl
@[simp] theorem setHist_hist : (d.setHist h).hist = h := rfl
@[simp] theorem setHist_pc : (d.setHist h).pc = d.pc := rfl
@[simp] theorem setHist_pos : (d.setHist h).pos = d.pos := rfl
@[simp] theorem setHist_width : (d.setHist h).width = d.width := rfl
@[simp] theorem setHist_height : (d.setHist h).height = d.height := rfl
@[simp] theorem setHist_channels : (d.setHist h).channels = d.channels := rfl
@[simp] theorem setHist_colorspace : (d.setHist h).colorspace = d.colorspace := rfl
@[simp] theorem setHist_npix : (d.setHist h).npix = d.npix := rfl
@[simp] theorem setHist_inlen : (d.setHist h).inlen = d.inlen := rfl
@[simp] theorem setHist_str : (d.setHist h).str = d.str := rfl
@[simp] theorem setHist_pix : (d.setHist h).pix = d.pix := rfl
@[simp] theorem setHist_host : (d.setHist h).host = d.host := rfl
@[simp] theorem setHist_free : (d.setHist h).free = d.free := rfl

variable (m n i : Nat)

@[simp] theorem advance_phase : (d.advance m n).phase = d.phase := rfl
@[simp] theorem advance_err : (d.advance m n).err = d.err := rfl
@[simp] theorem advance_hist : (d.advance m n).hist = d.hist := rfl
@[simp] theorem advance_pc : (d.advance m n).pc = d.pc + n := rfl
@[simp] theorem advance_pos : (d.advance m n).pos = d.pos + m := rfl
@[simp] theorem advance_width : (d.advance m n).width = d.width := rfl
@[simp] theorem advance_height : (d.advance m n).height = d.height := rfl
@[simp] theorem advance_channels : (d.advance m n).channels = d.channels := rfl
@[simp] theorem advance_colorspace : (d.advance m n).colorspace = d.colorspace := rfl
@[simp] theorem advance_npix : (d.advance m n).npix = d.npix := rfl
@[simp] theorem advance_inlen : (d.advance m n).inlen = d.inlen := rfl
@[simp] theorem advance_str : (d.advance m n).str = d.str := rfl
@[simp] theorem advance_pix : (d.advance m n).pix = d.pix := rfl
@[simp] theorem advance_host : (d.advance m n).host = d.host := rfl
@[simp] theorem advance_free : (d.advance m n).free = d.free := rfl

@[simp] theorem pixWrite_phase : (d.pixWrite i p).phase = d.phase := rfl
@[simp] theorem pixWrite_err : (d.pixWrite i p).err = d.err := rfl
@[simp] theorem pixWrite_hist : (d.pixWrite i p).hist = d.hist := rfl
@[simp] theorem pixWrite_pc : (d.pixWrite i p).pc = d.pc := rfl
@[simp] theorem pixWrite_pos : (d.pixWrite i p).pos = d.pos := rfl
@[simp] theorem pixWrite_width : (d.pixWrite i p).width = d.width := rfl
@[simp] theorem pixWrite_height : (d.pixWrite i p).height = d.height := rfl
@[simp] theorem pixWrite_channels : (d.pixWrite i p).channels = d.channels := rfl
@[simp] theorem pixWrite_colorspace : (d.pixWrite i p).colorspace = d.colorspace := rfl
@[simp] theorem pixWrite_npix : (d.pixWrite i p).npix = d.npix := rfl
@[simp] theorem pixWrite_inlen : (d.pixWrite i p).inlen = d.inlen := rfl
@[simp] theorem pixWrite_str : (d.pixWrite i p).str = d.str := rfl
@[simp] theorem pixWrite_host : (d.pixWrite i p).host = d.host := rfl
@[simp] theorem pixWrite_free : (d.pixWrite i p).free = d.free := rfl

/-- `PixWrite` is one `MemWrite` (R55). -/
@[simp] theorem pixWrite_pix :
    (d.pixWrite i p).pix = Memory.writeBytes d.pix (i * pixelSize d.channels) (pixelBytes d.channels p) := rfl

/-! ### Encoder updates -/

variable (bs : List Byte)

@[simp] theorem emit_phase : (e.emit bs).phase = e.phase := rfl
@[simp] theorem emit_err : (e.emit bs).err = e.err := rfl
@[simp] theorem emit_hist : (e.emit bs).hist = e.hist := rfl
@[simp] theorem emit_run : (e.emit bs).run = e.run := rfl
@[simp] theorem emit_pos : (e.emit bs).pos = e.pos := rfl
@[simp] theorem emit_wp : (e.emit bs).wp = e.wp + bs.length := rfl
@[simp] theorem emit_width : (e.emit bs).width = e.width := rfl
@[simp] theorem emit_height : (e.emit bs).height = e.height := rfl
@[simp] theorem emit_channels : (e.emit bs).channels = e.channels := rfl
@[simp] theorem emit_colorspace : (e.emit bs).colorspace = e.colorspace := rfl
@[simp] theorem emit_pixlen : (e.emit bs).pixlen = e.pixlen := rfl
@[simp] theorem emit_npix : (e.emit bs).npix = e.npix := rfl
@[simp] theorem emit_outlen : (e.emit bs).outlen = e.outlen := rfl
@[simp] theorem emit_pix : (e.emit bs).pix = e.pix := rfl
@[simp] theorem emit_str : (e.emit bs).str = Memory.writeBytes e.str e.wp bs := rfl
@[simp] theorem emit_host : (e.emit bs).host = e.host := rfl
@[simp] theorem emit_free : (e.emit bs).free = e.free := rfl

/-! ### Raising -/

variable (r : Err)

@[simp] theorem enc_failed_phase : (e.failed r).phase = .error := rfl
@[simp] theorem enc_failed_err : (e.failed r).err = r := rfl
@[simp] theorem enc_failed_pix : (e.failed r).pix = e.pix := rfl
@[simp] theorem enc_failed_str : (e.failed r).str = Memory.free .enc e.free := rfl
@[simp] theorem enc_failed_host : (e.failed r).host = e.host := rfl
@[simp] theorem dec_failed_phase : (d.failed r).phase = .error := rfl
@[simp] theorem dec_failed_err : (d.failed r).err = r := rfl
@[simp] theorem dec_failed_str : (d.failed r).str = d.str := rfl
@[simp] theorem dec_failed_pix : (d.failed r).pix = Memory.free .dec d.free := rfl
@[simp] theorem dec_failed_host : (d.failed r).host = d.host := rfl
@[simp] theorem raise_enc : raise .enc r s = s.withEnc (s.enc.failed r) := rfl
@[simp] theorem raise_dec : raise .dec r s = s.withDec (s.dec.failed r) := rfl

end Sys2Proof.Machine
end

