-- ==== Sys2Proof/Laws/History.lean ====
section
/-! SUPPORT. What the Pixel History's operations do to every entry, and that they keep R25's invariant. -/

namespace Sys2Proof.Machine

@[simp] theorem start_lookup (k : BitVec 6) : History.start.lookup k = Config.emptyPixel := by
  simp [History.start, History.lookup]

/-- `History.update` changes one entry and no other (R120). -/
theorem update_lookup (h : History) (p : Pixel) (k : BitVec 6) :
    (h.update p).lookup k = if k = hash p then p else h.lookup k := by
  unfold History.update History.lookup
  simp only [Vector.getElem_set]
  by_cases hk : k = hash p
  · subst hk; simp
  · have : (hash p).toNat ≠ k.toNat := fun h => hk (BitVec.eq_of_toNat_eq h.symm)
    simp [hk, this]

theorem hit_iff (h : History) (p : Pixel) : h.hit p = true ↔ h.lookup (hash p) = p := by simp [History.hit]

theorem indexed_start : History.start.Indexed := fun k => .inl (start_lookup k)

theorem indexed_setPrev {h : History} (p : Pixel) (hi : h.Indexed) : (h.setPrev p).Indexed := hi

/-- Every cache write is at the index of the Pixel's own hash, so R25's invariant is kept. -/
theorem indexed_record {h : History} (p : Pixel) (hi : h.Indexed) : (h.record p).Indexed := by
  intro k
  rw [record_lookup, update_lookup]
  split
  · subst_vars; exact .inr rfl
  · exact hi k

end Sys2Proof.Machine
end

