-- ==== Sys2Proof/Laws/Memory.lean ====
section
/-! SUPPORT. What the operations on a byte space do: read after write, the canonical form, reading back whole sequences. -/

namespace Sys2Proof.Machine

@[simp] theorem read_nil (x : Nat) : Memory.read [] x = none := rfl

/-- Reading after writing one byte. -/
theorem read_writeByte (m : Memory) (a x : Nat) (v : Byte) :
    Memory.read (Memory.writeByte m a v) x = if x = a then some v else Memory.read m x := by
  induction m with
  | nil => simp [Memory.writeByte, Memory.read]
  | cons c m ih =>
    obtain ⟨c, b⟩ := c
    unfold Memory.writeByte
    split
    · simp [Memory.read]
    · split
      · subst_vars; by_cases hx : x = c <;> simp [Memory.read, hx]
      · simp only [Memory.read, ih]
        by_cases hx : x = c
        · subst hx; simp; omega
        · simp [hx]

/-- Reading after writing a sequence of bytes (R53). -/
theorem read_writeBytes (v : List Byte) (m : Memory) (a x : Nat) :
    Memory.read (Memory.writeBytes m a v) x
      = if a ≤ x ∧ x < a + v.length then v[x - a]? else Memory.read m x := by
  induction v generalizing m a with
  | nil =>
    have : ¬(a ≤ x ∧ x < a) := by omega
    simp [Memory.writeBytes, this]
  | cons b v ih =>
    simp only [Memory.writeBytes, ih, read_writeByte, List.length_cons]
    by_cases h1 : x = a
    · subst h1
      have : ¬(x + 1 ≤ x ∧ x < x + 1 + v.length) := by omega
      simp
    · by_cases h2 : a + 1 ≤ x ∧ x < a + 1 + v.length
      · have h3 : a ≤ x ∧ x < a + (v.length + 1) := by omega
        have h4 : x - a = x - (a + 1) + 1 := by omega
        simp [h2, h3, h4]
      · have h3 : ¬(a ≤ x ∧ x < a + (v.length + 1)) := by omega
        rw [if_neg h2, if_neg h1, if_neg h3]

/-- Outside the written bytes a space reads as before (R53). -/
theorem read_writeBytes_outside (v : List Byte) (m : Memory) (a x : Nat) (h : x < a ∨ a + v.length ≤ x) :
    Memory.read (Memory.writeBytes m a v) x = Memory.read m x := by
  rw [read_writeBytes, if_neg (by omega)]

/-- Inside them it reads what was written (R53). -/
theorem read_writeBytes_inside (v : List Byte) (m : Memory) (a k : Nat) (h : k < v.length) :
    Memory.read (Memory.writeBytes m a v) (a + k) = v[k]? := by
  rw [read_writeBytes, if_pos (by omega), Nat.add_sub_cancel_left]

/-- Which addresses have a value after a write. -/
theorem isSome_read_writeBytes (v : List Byte) (m : Memory) (a x : Nat) :
    (Memory.read (Memory.writeBytes m a v) x).isSome = true
      ↔ (a ≤ x ∧ x < a + v.length) ∨ (Memory.read m x).isSome = true := by
  rw [read_writeBytes]
  by_cases h : a ≤ x ∧ x < a + v.length
  · have hlt : x - a < v.length := by omega
    simp [h, List.getElem?_eq_getElem hlt]
  · simp [h]

/-! ### The canonical form -/

theorem wf_iff (m : Memory) : Memory.wf m = true ↔ m.Pairwise fun x y => x.1 < y.1 := by simp [Memory.wf]

@[simp] theorem wf_nil : Memory.wf [] = true := by decide

theorem writeByte_first (m : Memory) (a : Nat) (v : Byte) (c : Host.Cell) (h : c ∈ Memory.writeByte m a v) :
    c.1 = a ∨ c ∈ m := by
  induction m with
  | nil => simp [Memory.writeByte] at h; simp [h]
  | cons x m ih =>
    unfold Memory.writeByte at h
    split at h
    · rcases List.mem_cons.1 h with rfl | h
      · simp
      · exact .inr h
    · split at h
      · rcases List.mem_cons.1 h with rfl | h
        · simp
        · exact .inr (by simp [h])
      · rcases List.mem_cons.1 h with rfl | h
        · simp
        · rcases ih h with h | h <;> simp [h]

/-- Writing a byte keeps the canonical form. -/
theorem writeByte_wf (m : Memory) (a : Nat) (v : Byte) (h : Memory.wf m = true) :
    Memory.wf (Memory.writeByte m a v) = true := by
  rw [wf_iff] at *
  induction m with
  | nil => simp [Memory.writeByte]
  | cons x m ih =>
    have hx := List.pairwise_cons.1 h
    unfold Memory.writeByte
    split
    · refine List.pairwise_cons.2 ⟨fun y hy => ?_, h⟩
      rcases List.mem_cons.1 hy with rfl | hy
      · assumption
      · have := hx.1 y hy; simp_all; omega
    · split
      · refine List.pairwise_cons.2 ⟨fun y hy => ?_, hx.2⟩
        have := hx.1 y hy; simp_all
      · refine List.pairwise_cons.2 ⟨fun y hy => ?_, ih hx.2⟩
        rcases writeByte_first m a v y hy with hy | hy
        · rw [hy]; simp_all; omega
        · exact hx.1 y hy

/-- Writing a sequence keeps the canonical form. -/
theorem writeBytes_wf (v : List Byte) (m : Memory) (a : Nat) (h : Memory.wf m = true) :
    Memory.wf (Memory.writeBytes m a v) = true := by
  induction v generalizing m a with
  | nil => exact h
  | cons b v ih => exact ih _ _ (writeByte_wf m a b h)

/-- Writing bytes at addresses of their own keeps the canonical form. -/
theorem writeCells_wf (cells : List Host.Cell) (m : Memory) (h : Memory.wf m = true) :
    Memory.wf (Memory.writeCells m cells) = true := by
  induction cells generalizing m with
  | nil => exact h
  | cons c cells ih => exact ih _ (writeByte_wf m c.1 c.2 h)

/-- Free contents have the canonical form. -/
@[simp] theorem free_wf (a : Agent) (event : Nat) : Memory.wf (Memory.free a event) = true :=
  writeCells_wf _ [] wf_nil

/-- A byte above every listed address goes to the end. -/
theorem writeByte_above (m : Memory) (a : Nat) (v : Byte) (h : ∀ c ∈ m, c.1 < a) :
    Memory.writeByte m a v = m ++ [(a, v)] := by
  induction m with
  | nil => rfl
  | cons c m ih =>
    have hc : c.1 < a := h c (by simp)
    rw [Memory.writeByte, if_neg (by omega), if_neg (by omega), ih fun x hx => h x (by simp [hx])]
    rfl

/-- Rising bytes above every listed address go to the end, in their order. -/
theorem writeCells_above (cells : List Host.Cell) (m : Memory) (h : Memory.wf (m ++ cells) = true) :
    Memory.writeCells m cells = m ++ cells := by
  induction cells generalizing m with
  | nil => simp [Memory.writeCells]
  | cons c cells ih =>
    have hlt : ∀ x ∈ m, x.1 < c.1 := fun x hx =>
      (List.pairwise_append.1 ((wf_iff _).1 h)).2.2 x hx c (by simp)
    show Memory.writeCells (Memory.writeByte m c.1 c.2) cells = m ++ c :: cells
    rw [writeByte_above m c.1 c.2 hlt, ih _ (by simpa using h)]
    simp

/-- Every canonical memory is written by its own entries, so free contents exclude none of them (R69, R201). -/
theorem writeCells_canonical (m : Memory) (h : Memory.wf m = true) : Memory.writeCells [] m = m :=
  writeCells_above m [] h

/-- The four spaces right after reset have the canonical form. -/
theorem reset_wf :
    Memory.wf State.reset.enc.pix = true ∧ Memory.wf State.reset.enc.str = true
      ∧ Memory.wf State.reset.dec.str = true ∧ Memory.wf State.reset.dec.pix = true := by decide

/-! ### Writing and reading sequences -/

theorem writeBytes_append (v w : List Byte) (m : Memory) (a : Nat) :
    Memory.writeBytes m a (v ++ w) = Memory.writeBytes (Memory.writeBytes m a v) (a + v.length) w := by
  induction v generalizing m a with
  | nil => rfl
  | cons b v ih => simp [Memory.writeBytes, ih, Nat.add_assoc, Nat.add_comm 1]

/-- Exactly when a read answers, and with what (R52). -/
theorem readBytes_ok_iff (m : Memory) (a n : Nat) (bs : List Byte) :
    Memory.readBytes m a n = .ok bs ↔ bs.length = n ∧ ∀ k, k < n → Memory.read m (a + k) = bs[k]? := by
  induction n generalizing a bs with
  | zero => cases bs <;> simp [Memory.readBytes]
  | succ n ih =>
    unfold Memory.readBytes
    cases hr : Memory.read m a with
    | none =>
      simp only [reduceCtorEq, false_iff, not_and]
      intro hl hk
      have := hk 0 (by omega)
      simp [hr] at this
      simp [this] at hl
    | some b =>
      cases hrest : Memory.readBytes m (a + 1) n with
      | error x =>
        simp only [reduceCtorEq, false_iff, not_and]
        intro hl hk
        cases bs with
        | nil => simp at hl
        | cons c bs =>
          have := (ih (a + 1) bs).2 ⟨by simpa using hl, fun k hk' => by
            have := hk (k + 1) (by omega)
            simpa [Nat.add_assoc, Nat.add_comm 1] using this⟩
          rw [hrest] at this
          cases this
      | ok bs' =>
        have hb := (ih (a + 1) bs').1 hrest
        constructor
        · intro h
          have h' : b :: bs' = bs := by simpa using h
          subst h'
          refine ⟨by simp [hb.1], fun k hk => ?_⟩
          cases k with
          | zero => simpa using hr
          | succ k =>
            have := hb.2 k (by omega)
            simpa [Nat.add_assoc, Nat.add_comm 1] using this
        · rintro ⟨hl, hk⟩
          cases bs with
          | nil => simp at hl
          | cons c bs =>
            have h0 := hk 0 (by omega)
            simp [hr] at h0
            have hbs : Memory.readBytes m (a + 1) n = .ok bs :=
              (ih (a + 1) bs).2 ⟨by simpa using hl, fun k hk' => by
                have := hk (k + 1) (by omega)
                simpa [Nat.add_assoc, Nat.add_comm 1] using this⟩
            rw [hrest] at hbs
            simp_all

/-- A read of written bytes answers. -/
theorem readBytes_total (m : Memory) (a n : Nat) (h : ∀ k, k < n → (Memory.read m (a + k)).isSome = true) :
    ∃ bs, Memory.readBytes m a n = .ok bs := by
  induction n generalizing a with
  | zero => exact ⟨[], rfl⟩
  | succ n ih =>
    obtain ⟨b, hb⟩ := Option.isSome_iff_exists.1 (h 0 (by omega))
    obtain ⟨bs, hbs⟩ := ih (a + 1) fun k hk => by
      have := h (k + 1) (by omega)
      simpa [Nat.add_assoc, Nat.add_comm 1] using this
    exact ⟨b :: bs, by simp_all [Memory.readBytes]⟩

/-- Reading back a sequence just written. -/
theorem readBytes_writeBytes (m : Memory) (a : Nat) (v : List Byte) :
    Memory.readBytes (Memory.writeBytes m a v) a v.length = .ok v :=
  (readBytes_ok_iff _ _ _ _).2 ⟨rfl, fun k hk => read_writeBytes_inside v m a k hk⟩

/-- Two reads side by side are one read. -/
theorem readBytes_append (m : Memory) (a n k : Nat) (v w : List Byte) (hv : Memory.readBytes m a n = .ok v)
    (hw : Memory.readBytes m (a + n) k = .ok w) : Memory.readBytes m a (n + k) = .ok (v ++ w) := by
  rw [readBytes_ok_iff] at *
  refine ⟨by simp [hv.1, hw.1], fun i hi => ?_⟩
  by_cases h : i < n
  · rw [List.getElem?_append_left (by omega), hv.2 i h]
  · rw [List.getElem?_append_right (by omega), hv.1, ← hw.2 (i - n) (by omega)]
    congr 1; omega

end Sys2Proof.Machine
end

