-- ==== Sys2Proof/Laws/Chunk.lean ====
section
/-! SUPPORT. What the operations that chunks are made of can do. -/

namespace Sys2Proof.Machine

/-! ### `chunkStep` -/

/-- An enabled chunk that is all there runs (R164, R165). -/
theorem chunkStep_next (n : Nat) (f : Dec → Dec) (s : State) (hb : s.dec.phase = .busy) (hp : s.dec.pos < s.dec.npix)
    (hl : s.dec.pc + n ≤ s.dec.inlen) : chunkStep n f s = .next (s.withDec (f s.dec)) := by
  unfold chunkStep
  rw [if_pos ⟨hb, hp⟩, if_neg (by omega)]

/-- An enabled chunk that is cut short raises TruncatedInput (R165). -/
theorem chunkStep_short (n : Nat) (f : Dec → Dec) (s : State) (hb : s.dec.phase = .busy) (hp : s.dec.pos < s.dec.npix)
    (hl : s.dec.inlen < s.dec.pc + n) : chunkStep n f s = .next (raise .dec .truncatedInput s) := by
  unfold chunkStep
  rw [if_pos ⟨hb, hp⟩, if_pos hl]

/-- A chunk that is not enabled stops (R164). -/
theorem chunkStep_fault (n : Nat) (f : Dec → Dec) (s : State) (h : ¬(s.dec.phase = .busy ∧ s.dec.pos < s.dec.npix)) :
    chunkStep n f s = .fault (.notEnabled .dec) := by
  unfold chunkStep
  rw [if_neg h]

/-- Everything a chunk can do. -/
theorem chunkStep_cases {n : Nat} {f : Dec → Dec} {s t : State} (h : chunkStep n f s = .next t) :
    s.dec.phase = .busy ∧ s.dec.pos < s.dec.npix ∧
      ((s.dec.inlen < s.dec.pc + n ∧ t = s.withDec (s.dec.failed .truncatedInput))
        ∨ (s.dec.pc + n ≤ s.dec.inlen ∧ t = s.withDec (f s.dec))) := by
  by_cases he : s.dec.phase = .busy ∧ s.dec.pos < s.dec.npix
  · refine ⟨he.1, he.2, ?_⟩
    by_cases hl : s.dec.inlen < s.dec.pc + n
    · rw [chunkStep_short n f s he.1 he.2 hl] at h
      exact .inl ⟨hl, by injection h with h; exact h.symm⟩
    · rw [chunkStep_next n f s he.1 he.2 (by omega)] at h
      exact .inr ⟨by omega, by injection h with h; exact h.symm⟩
  · rw [chunkStep_fault n f s he] at h
    cases h

/-! ### Writing pixels -/

/-- A run of copies is one write of all their bytes (R53, R175), and changes nothing else. -/
theorem pixWriteRun_eq (m : Nat) (d : Dec) (i : Nat) (p : Pixel) :
    d.pixWriteRun i p m =
      { d with
        pix := Memory.writeBytes d.pix (i * pixelSize d.channels)
          (List.replicate m (pixelBytes d.channels p)).flatten } := by
  induction m generalizing d i with
  | zero => rfl
  | succ m ih =>
    rw [Dec.pixWriteRun, ih]
    simp only [pixWrite_pix, pixWrite_channels, List.replicate_succ, List.flatten_cons, writeBytes_append,
      pixelBytes_length]
    simp only [Dec.pixWrite, Nat.add_mul, Nat.one_mul]

theorem flatten_replicate_length (m : Nat) (c : Byte) (p : Pixel) :
    (List.replicate m (pixelBytes c p)).flatten.length = m * pixelSize c := by
  simp [List.length_flatten]

section fields
variable (d : Dec) (i m : Nat) (p : Pixel)
@[simp] theorem pixWriteRun_phase : (d.pixWriteRun i p m).phase = d.phase := by rw [pixWriteRun_eq]
@[simp] theorem pixWriteRun_err : (d.pixWriteRun i p m).err = d.err := by rw [pixWriteRun_eq]
@[simp] theorem pixWriteRun_hist : (d.pixWriteRun i p m).hist = d.hist := by rw [pixWriteRun_eq]
@[simp] theorem pixWriteRun_pc : (d.pixWriteRun i p m).pc = d.pc := by rw [pixWriteRun_eq]
@[simp] theorem pixWriteRun_pos : (d.pixWriteRun i p m).pos = d.pos := by rw [pixWriteRun_eq]
@[simp] theorem pixWriteRun_width : (d.pixWriteRun i p m).width = d.width := by rw [pixWriteRun_eq]
@[simp] theorem pixWriteRun_height : (d.pixWriteRun i p m).height = d.height := by rw [pixWriteRun_eq]
@[simp] theorem pixWriteRun_channels : (d.pixWriteRun i p m).channels = d.channels := by rw [pixWriteRun_eq]
@[simp] theorem pixWriteRun_colorspace : (d.pixWriteRun i p m).colorspace = d.colorspace := by rw [pixWriteRun_eq]
@[simp] theorem pixWriteRun_npix : (d.pixWriteRun i p m).npix = d.npix := by rw [pixWriteRun_eq]
@[simp] theorem pixWriteRun_inlen : (d.pixWriteRun i p m).inlen = d.inlen := by rw [pixWriteRun_eq]
@[simp] theorem pixWriteRun_str : (d.pixWriteRun i p m).str = d.str := by rw [pixWriteRun_eq]
@[simp] theorem pixWriteRun_host : (d.pixWriteRun i p m).host = d.host := by rw [pixWriteRun_eq]
@[simp] theorem pixWriteRun_free : (d.pixWriteRun i p m).free = d.free := by rw [pixWriteRun_eq]
theorem pixWriteRun_pix : (d.pixWriteRun i p m).pix = Memory.writeBytes d.pix (i * pixelSize d.channels)
    (List.replicate m (pixelBytes d.channels p)).flatten := by rw [pixWriteRun_eq]
end fields

theorem runLength_pos (frun : BitVec 6) : 0 < runLength frun := by simp [runLength]

/-! ### Everything an instruction can do -/

/-- The decoder after a chunk: `n` copies of `p` written and counted, `pc` past the chunk, the History `h`. Nothing
else changes. -/
structure Produced (d d' : Dec) (h : History) (p : Pixel) (n size : Nat) : Prop where
  phase : d'.phase = d.phase
  err : d'.err = d.err
  hist : d'.hist = h
  pc : d'.pc = d.pc + size
  pos : d'.pos = d.pos + n
  width : d'.width = d.width
  height : d'.height = d.height
  channels : d'.channels = d.channels
  colorspace : d'.colorspace = d.colorspace
  npix : d'.npix = d.npix
  inlen : d'.inlen = d.inlen
  str : d'.str = d.str
  pix : d'.pix = Memory.writeBytes d.pix (d.pos * pixelSize d.channels)
    (List.replicate n (pixelBytes d.channels p)).flatten
  host : d'.host = d.host
  free : d'.free = d.free

theorem produced_produce (d : Dec) (h : History) (p : Pixel) (size : Nat) :
    Produced d ((d.setHist h).produce p size) h p 1 size := by
  constructor <;> simp [Dec.produce]

theorem produced_tail (d : Dec) (p : Pixel) (size : Nat) :
    Produced d (d.tail p size) (d.hist.record p) p 1 size := produced_produce d _ p size

theorem produced_run (d : Dec) (m : Nat) :
    Produced d ((d.pixWriteRun d.pos d.hist.prev m).advance m 1) d.hist d.hist.prev m 1 := by
  constructor <;> simp [pixWriteRun_pix]

/-- Every chunk is a `chunkStep` of its size that produces what `chunkMeaning` says, clamped to the pixels that remain
(R170 to R176). -/
theorem exec_chunk (i : Instr) (hi : i.place = .chunk) :
    ∃ f : Dec → Dec, (∀ s, exec i s = chunkStep i.size f s) ∧
      ∀ d, d.pos < d.npix → Produced d (f d) (chunkMeaning i d.hist).2.2 (chunkMeaning i d.hist).1
        (min (chunkMeaning i d.hist).2.1 (d.npix - d.pos)) i.size := by
  have one : ∀ d : Dec, d.pos < d.npix → min 1 (d.npix - d.pos) = 1 := fun d h => by omega
  cases i with
  | rgb r g b => exact ⟨_, fun _ => rfl, fun d h => by simpa only [chunkMeaning, Instr.size, one d h] using produced_tail d _ 4⟩
  | rgba r g b a => exact ⟨_, fun _ => rfl, fun d h => by simpa only [chunkMeaning, Instr.size, one d h] using produced_tail d _ 5⟩
  | index k => exact ⟨_, fun _ => rfl, fun d h => by simpa only [chunkMeaning, Instr.size, one d h] using produced_produce d _ _ 1⟩
  | diff fr fg fb => exact ⟨_, fun _ => rfl, fun d h => by simpa only [chunkMeaning, Instr.size, one d h] using produced_tail d _ 1⟩
  | luma fgm frg fbg =>
    exact ⟨_, fun _ => rfl, fun d h => by simpa only [chunkMeaning, Instr.size, one d h] using produced_tail d _ 2⟩
  | run frun => exact ⟨_, fun _ => rfl, fun d _ => produced_run d _⟩
  | header => cases hi
  | endMarker => cases hi

/-- A chunk leaves the History as it was, or with `prev` replaced, or with the pixel recorded. -/
theorem chunkMeaning_hist (i : Instr) (h : History) :
    (chunkMeaning i h).2.2 = h ∨ (chunkMeaning i h).2.2 = h.setPrev (chunkMeaning i h).1
      ∨ (chunkMeaning i h).2.2 = h.record (chunkMeaning i h).1 := by
  cases i <;> simp [chunkMeaning]

/-- A chunk stands for at least one pixel (R179). -/
theorem chunkMeaning_pos (i : Instr) (h : History) (hi : i.place = .chunk) : 0 < (chunkMeaning i h).2.1 := by
  cases i <;> first | exact Nat.one_pos | exact Nat.succ_pos _ | cases hi

/-- R25's invariant survives every chunk. -/
theorem indexed_chunkMeaning {h : History} (i : Instr) (hi : h.Indexed) : (chunkMeaning i h).2.2.Indexed := by
  rcases chunkMeaning_hist i h with e | e | e <;> rw [e]
  · exact hi
  · exact indexed_setPrev _ hi
  · exact indexed_record _ hi

/-- Everything the execution of an instruction can do when it answers a next state: raise one of the decoder's two
errors, produce pixels, begin an operation, or finish it. -/
theorem exec_cases {i : Instr} {s t : State} (h : exec i s = .next t) :
    (∃ r, (r = .truncatedInput ∨ r = .invalidHeader ∧ i.place = .start) ∧ t = s.withDec (s.dec.failed r))
    ∨ (i.place = .chunk ∧ s.dec.phase = .busy ∧ s.dec.pos < s.dec.npix ∧ s.dec.pc + i.size ≤ s.dec.inlen ∧
        ∃ d', t = s.withDec d' ∧ Produced s.dec d' (chunkMeaning i s.dec.hist).2.2 (chunkMeaning i s.dec.hist).1
          (min (chunkMeaning i s.dec.hist).2.1 (s.dec.npix - s.dec.pos)) i.size)
    ∨ (s.dec.phase ≠ .busy ∧ ∃ w ht c cs, i = .header w ht c cs ∧ 14 ≤ s.dec.inlen ∧ w ≠ 0 ∧ ht ≠ 0 ∧ (c = 3 ∨ c = 4)
        ∧ t = s.withDec (s.dec.begin w ht c cs))
    ∨ (s.dec.phase = .busy ∧ i = .endMarker ∧ s.dec.pos = s.dec.npix ∧ s.dec.pc + 8 ≤ s.dec.inlen
        ∧ t = s.withDec { s.dec with phase := .done }) := by
  by_cases hi : i.place = .chunk
  · obtain ⟨f, hf, hprod⟩ := exec_chunk i hi
    obtain ⟨hb, hp, ⟨-, ht⟩ | ⟨hl, ht⟩⟩ := chunkStep_cases (hf s ▸ h)
    · exact .inl ⟨_, .inl rfl, ht⟩
    · exact .inr (.inl ⟨hi, hb, hp, hl, _, ht, hprod _ hp⟩)
  · cases i with
    | header w ht c cs =>
      simp only [exec, execHeader] at h
      split at h
      · cases h
      · split at h
        · injection h with h; exact .inl ⟨_, .inl rfl, h.symm⟩
        · split at h
          · injection h with h; exact .inl ⟨_, .inr ⟨rfl, rfl⟩, h.symm⟩
          · split at h
            · injection h with h; exact .inl ⟨_, .inr ⟨rfl, rfl⟩, h.symm⟩
            · injection h with h
              rename_i hb hl hz hc
              simp only [not_or] at hz
              simp only [Bool.not_eq_false, validChannels_iff] at hc
              exact .inr (.inr (.inl ⟨hb, w, ht, c, cs, rfl, by omega, hz.1, hz.2, hc, h.symm⟩))
    | endMarker =>
      simp only [exec, execEndMarker] at h
      split at h
      · rename_i hb
        split at h
        · injection h with h; exact .inl ⟨_, .inl rfl, h.symm⟩
        · injection h with h; exact .inr (.inr (.inr ⟨hb.1, rfl, hb.2, by omega, h.symm⟩))
      · cases h
    | _ => exact absurd rfl hi

/-- An instruction acts on the decoder only (R20). -/
theorem exec_dec_only {i : Instr} {s t : State} (h : exec i s = .next t) : t = s.withDec t.dec := by
  rcases exec_cases h with ⟨r, -, rfl⟩ | ⟨-, -, -, -, d', rfl, -⟩ | ⟨-, w, ht, c, cs, -, -, -, -, -, rfl⟩
    | ⟨-, -, -, -, rfl⟩ <;> rfl

end Sys2Proof.Machine
end

