-- ==== Sys2Proof/Laws/PerInstr.lean ====
section
/-! SUPPORT. A fact about every instruction as syntax, one lemma per constructor: an encoding has the size of its format
(R81). -/

namespace Sys2Proof.Laws.EncodedSize

/-- The encoding of an instruction takes the bytes R81 gives its format. -/
def Statement (i : Instr) : Prop := (encode i).length = i.size

theorem rgb (r g b : Byte) : Statement (.rgb r g b) := rfl
theorem rgba (r g b a : Byte) : Statement (.rgba r g b a) := rfl
theorem index (k : BitVec 6) : Statement (.index k) := rfl
theorem diff (fr fg fb : BitVec 2) : Statement (.diff fr fg fb) := rfl
theorem luma (fgm : BitVec 6) (frg fbg : BitVec 4) : Statement (.luma fgm frg fbg) := rfl
theorem run (frun : BitVec 6) : Statement (.run frun) := rfl
theorem header (width height : BitVec 32) (channels colorspace : Byte) :
    Statement (.header width height channels colorspace) := rfl
theorem endMarker : Statement .endMarker := rfl

/-- The fact for every instruction. -/
theorem all (i : Instr) : Statement i := by cases i <;> rfl

end Sys2Proof.Laws.EncodedSize
end

