-- ==== Sys2Proof/Laws/Step.lean ====
section
/-! SUPPORT. Everything a step can do, said once for each agent and once for the block. -/

namespace Sys2Proof.Machine

@[simp] theorem encode_length (i : Instr) : (encode i).length = i.size := Laws.EncodedSize.all i

/-! ### The encoder -/

/-- Everything a step of the encoder can do when it answers a next state. -/
inductive EncDoes (e : Enc) : Enc → Prop where
  /-- No step is enabled. -/
  | wait (hp : e.phase ≠ .busy) (hh : e.host = []) : EncDoes e e
  /-- The host loads bytes into `ENC.PIX`. -/
  | load (addr : Nat) (bytes : List Byte) (rest : List EncMove) (hp : e.phase ≠ .busy)
      (hh : e.host = .load addr bytes :: rest) :
      EncDoes e { e with pix := Memory.writeBytes e.pix addr bytes, host := rest }
  /-- ENC.START fails (R131). -/
  | refuse (w h : BitVec 32) (c cs : Byte) (n : Nat) (rest : List EncMove) (r : Err) (hp : e.phase ≠ .busy)
      (hh : e.host = .start w h c cs n :: rest) (hr : encStartError w h c n = r) (hn : r ≠ .none) :
      EncDoes e ((e.taken rest).failed r)
  /-- ENC.START succeeds (R132). -/
  | begin (w h : BitVec 32) (c cs : Byte) (n : Nat) (rest : List EncMove) (hp : e.phase ≠ .busy)
      (hh : e.host = .start w h c cs n :: rest) (hr : encStartError w h c n = .none) :
      EncDoes e ((e.taken rest).begin w h c cs n)
  /-- ENC.PIXEL (R133). -/
  | pixel (p : Pixel) (hp : e.phase = .busy) (hl : e.pos < e.npix) (hr : e.pixRead e.pos = .ok p) :
      EncDoes e (e.consume p)
  /-- ENC.FINISH (R143). -/
  | finish (hp : e.phase = .busy) (hl : e.pos = e.npix) :
      EncDoes e { e.flushAndMark with outlen := e.flushAndMark.wp, phase := .done }

theorem encHostMove_cases {s t : State} (hp : s.enc.phase ≠ .busy) (h : encHostMove s = .next t) :
    ∃ e', t = s.withEnc e' ∧ EncDoes s.enc e' := by
  unfold encHostMove at h
  split at h
  · rename_i hh
    injection h with h
    exact ⟨_, h.symm, .wait hp hh⟩
  · rename_i hh
    injection h with h
    exact ⟨_, h.symm, .load _ _ _ hp hh⟩
  · rename_i w ht c cs n rest hh
    rw [encStart, if_neg (show (s.withEnc (s.enc.taken rest)).enc.phase ≠ .busy from hp)] at h
    split at h
    · rename_i hr
      injection h with h
      exact ⟨_, h.symm, .begin w ht c cs n rest hp hh hr⟩
    · rename_i hr
      injection h with h
      exact ⟨_, h.symm, .refuse w ht c cs n rest _ hp hh rfl hr⟩

theorem encStep_cases {s t : State} (h : encStep s = .next t) : ∃ e', t = s.withEnc e' ∧ EncDoes s.enc e' := by
  unfold encStep at h
  split at h
  · rename_i hb
    split at h
    · rename_i hl
      simp only [encPixel, hb, hl, and_self, if_true] at h
      split at h
      · cases h
      · rename_i hr
        injection h with h
        exact ⟨_, h.symm, .pixel _ hb hl hr⟩
    · unfold encFinish at h
      split at h
      · rename_i hf
        injection h with h
        exact ⟨_, h.symm, .finish hf.1 hf.2⟩
      · cases h
  all_goals
    rename_i hb
    exact encHostMove_cases (by rw [hb]; decide) h

/-! ### The decoder -/

/-- Everything a step of the decoder can do when it answers a next state. -/
inductive DecDoes (d : Dec) : Dec → Prop where
  /-- No step is enabled. -/
  | wait (hp : d.phase ≠ .busy) (hh : d.host = []) : DecDoes d d
  /-- The host loads bytes into `DEC.STR`. -/
  | load (addr : Nat) (bytes : List Byte) (rest : List DecMove) (hp : d.phase ≠ .busy)
      (hh : d.host = .load addr bytes :: rest) :
      DecDoes d { d with str := Memory.writeBytes d.str addr bytes, host := rest }
  /-- DEC.START fails (R161, R162). -/
  | refuse (n : Nat) (rest : List DecMove) (r : Err) (hp : d.phase ≠ .busy) (hh : d.host = .start n :: rest)
      (hr : r = .truncatedInput ∨ r = .invalidHeader) : DecDoes d ((d.latch n rest).failed r)
  /-- DEC.START succeeds (R163). -/
  | begin (n : Nat) (rest : List DecMove) (w h : BitVec 32) (c cs : Byte) (hp : d.phase ≠ .busy)
      (hh : d.host = .start n :: rest) (hf : fetchHeader (d.latch n rest) = .instr (.header w h c cs)) (hn : 14 ≤ n)
      (hw : w ≠ 0) (ht : h ≠ 0) (hc : c = 3 ∨ c = 4) : DecDoes d ((d.latch n rest).begin w h c cs)
  /-- A chunk or the end marker fails (R165, R177). -/
  | fail (hp : d.phase = .busy) : DecDoes d (d.failed .truncatedInput)
  /-- A chunk is executed (R164 to R176). -/
  | chunk (i : Instr) (d' : Dec) (hp : d.phase = .busy) (hi : i.place = .chunk) (hl : d.pos < d.npix)
      (hs : d.pc + i.size ≤ d.inlen) (hf : fetch d = .instr i)
      (hd : Produced d d' (chunkMeaning i d.hist).2.2 (chunkMeaning i d.hist).1
        (min (chunkMeaning i d.hist).2.1 (d.npix - d.pos)) i.size) : DecDoes d d'
  /-- DEC.FINISH (R177). -/
  | finish (hp : d.phase = .busy) (hl : d.pos = d.npix) (hs : d.pc + 8 ≤ d.inlen) (hf : fetch d = .instr .endMarker) :
      DecDoes d { d with phase := .done }

/-- An instruction decoded at a place belongs to that place. -/
theorem decode_place {place : Place} {bytes rest : List Byte} {i : Instr} (h : decode place bytes = .ok (i, rest)) :
    i.place = place := by
  cases place
  · simp only [decode, decodeHeader] at h
    split at h
    · split at h
      · simp only [Except.ok.injEq, Prod.mk.injEq] at h; rw [← h.1]; rfl
      · cases h
    · cases h
  · simp only [decode, decodeChunk] at h
    repeat' split at h
    all_goals
      cases h
      try rfl
  · simp only [decode, decodeEnd] at h
    split at h
    · split at h
      · simp only [Except.ok.injEq, Prod.mk.injEq] at h; rw [← h.1]; rfl
      · cases h
    · cases h

theorem fetchAt_place {place : Place} {d : Dec} {a n : Nat} {i : Instr} (h : fetchAt place d a n = .instr i) :
    i.place = place := by
  unfold fetchAt at h
  split at h
  · cases h
  · split at h
    · rename_i hd
      injection h with h
      subst h
      exact decode_place hd
    · cases h

theorem fetchHeader_place {d : Dec} {i : Instr} (h : fetchHeader d = .instr i) : i.place = .start := by
  unfold fetchHeader at h
  split at h
  · cases h
  · exact fetchAt_place h

/-- What a BUSY decoder fetches is a chunk while pixels are missing, and the end marker otherwise (R164). -/
theorem fetch_place {d : Dec} {i : Instr} (h : fetch d = .instr i) :
    i.place = if d.pos < d.npix then .chunk else .finish := by
  unfold fetch at h
  split at h
  · rename_i hl
    rw [if_pos hl]
    unfold fetchChunk at h
    split at h
    · cases h
    · split at h
      · cases h
      · split at h
        · cases h
        · exact fetchAt_place h
  · rename_i hl
    rw [if_neg hl]
    unfold fetchEnd at h
    split at h
    · cases h
    · exact fetchAt_place h

/-- Wherever decoding fails, the failure fits the place: only a header can have a wrong magic. -/
theorem decode_badMagic {place : Place} {bytes : List Byte} (h : decode place bytes = .error .badMagic) :
    place = .start := by
  cases place
  · rfl
  · simp only [decode, decodeChunk] at h
    repeat' split at h
    all_goals cases h
  · simp only [decode, decodeEnd] at h
    repeat' split at h
    all_goals cases h

theorem decodeFailure_of_ne {e : DecodeError} (h : e ≠ .badMagic) : decodeFailure e = .truncatedInput := by
  cases e <;> first | rfl | exact absurd rfl h

theorem fetch_failed {d : Dec} {e : DecodeError} (h : fetch d = .failed e) : decodeFailure e = .truncatedInput := by
  apply decodeFailure_of_ne
  rintro rfl
  have key : ∀ {place a n}, fetchAt place d a n = .failed .badMagic → place = .start := by
    intro place a n h
    unfold fetchAt at h
    split at h
    · cases h
    · split at h
      · cases h
      · rename_i hd
        injection h with h
        subst h
        exact decode_badMagic hd
  unfold fetch fetchChunk fetchEnd at h
  repeat' split at h
  all_goals first | cases h | exact absurd (key h) (by decide)

theorem decHostMove_cases {s t : State} (hp : s.dec.phase ≠ .busy) (h : decHostMove s = .next t) :
    ∃ d', t = s.withDec d' ∧ DecDoes s.dec d' := by
  unfold decHostMove at h
  split at h
  · rename_i hh
    injection h with h
    exact ⟨_, h.symm, .wait hp hh⟩
  · rename_i hh
    injection h with h
    exact ⟨_, h.symm, .load _ _ _ hp hh⟩
  · rename_i n rest hh
    unfold runFetched at h
    split at h
    · rename_i i hf
      rcases exec_cases h with ⟨r, hr, rfl⟩ | ⟨hi, -⟩ | ⟨-, w, ht, c, cs, rfl, hn, hw, hht, hc, rfl⟩ | ⟨hb, -⟩
      · exact ⟨_, rfl, .refuse n rest r hp hh (hr.imp_right And.left)⟩
      · rw [fetchHeader_place hf] at hi; cases hi
      · exact ⟨_, rfl, .begin n rest w ht c cs hp hh hf hn hw hht hc⟩
      · exact absurd hb hp
    · rename_i e hf
      injection h with h
      exact ⟨_, h.symm, .refuse n rest _ hp hh (by cases e <;> simp [decodeFailure])⟩
    · cases h

theorem decStep_cases {s t : State} (h : decStep s = .next t) : ∃ d', t = s.withDec d' ∧ DecDoes s.dec d' := by
  unfold decStep at h
  split at h
  · rename_i hb
    unfold runFetched at h
    split at h
    · rename_i i hf
      have hi := fetch_place hf
      rcases exec_cases h with ⟨r, hr, rfl⟩ | ⟨hc, -, hl, hs, d', rfl, hd⟩ | ⟨hnb, -⟩ | ⟨-, rfl, hl, hs, rfl⟩
      · rcases hr with rfl | ⟨-, hst⟩
        · exact ⟨_, rfl, .fail hb⟩
        · rw [hst] at hi; split at hi <;> cases hi
      · exact ⟨_, rfl, .chunk i d' hb hc hl hs hf hd⟩
      · exact absurd hb hnb
      · exact ⟨_, rfl, .finish hb hl hs hf⟩
    · rename_i e hf
      injection h with h
      rw [fetch_failed hf] at h
      exact ⟨_, h.symm, .fail hb⟩
    · cases h
  all_goals
    rename_i hb
    exact decHostMove_cases (by rw [hb]; decide) h

/-! ### The block -/

/-- Everything a step of the block can do when it answers a next state: wait, or a step of one agent after which it is
the other's turn. -/
theorem step_cases {s t : State} (h : step s = .next t) :
    (mover s = none ∧ t = s)
    ∨ (mover s = some .enc ∧ ∃ e', EncDoes s.enc e' ∧ t = (s.withEnc e').withTurn .dec)
    ∨ (mover s = some .dec ∧ ∃ d', DecDoes s.dec d' ∧ t = (s.withDec d').withTurn .enc) := by
  unfold step at h
  split at h
  · rename_i hm
    injection h with h
    exact .inl ⟨hm, h.symm⟩
  · rename_i a hm
    cases a
    · cases hs : agentStep .enc s with
      | next u =>
        rw [hs] at h
        injection h with h
        obtain ⟨e', rfl, he⟩ := encStep_cases hs
        exact .inr (.inl ⟨hm, e', he, h.symm⟩)
      | fault r => rw [hs] at h; cases h
      | refused r => rw [hs] at h; cases h
    · cases hs : agentStep .dec s with
      | next u =>
        rw [hs] at h
        injection h with h
        obtain ⟨d', rfl, hd⟩ := decStep_cases hs
        exact .inr (.inr ⟨hm, d', hd, h.symm⟩)
      | fault r => rw [hs] at h; cases h
      | refused r => rw [hs] at h; cases h

end Sys2Proof.Machine
end

