-- ==== Sys2Proof/Laws/Exec.lean ====
section
/-! SUPPORT. Each arm of `exec`, the two agents' steps by phase, and the framing decoders, as equations. -/

namespace Sys2Proof.Machine

theorem exec_rgb (r g b : Byte) (s : State) :
    exec (.rgb r g b) s = chunkStep 4 (fun d => d.tail (rgbPixel d.hist.prev r g b) 4) s := rfl

theorem exec_rgba (r g b a : Byte) (s : State) :
    exec (.rgba r g b a) s = chunkStep 5 (fun d => d.tail (rgbaPixel r g b a) 5) s := rfl

theorem exec_index (k : BitVec 6) (s : State) :
    exec (.index k) s
      = chunkStep 1 (fun d => (d.setHist (d.hist.setPrev (d.hist.lookup k))).produce (d.hist.lookup k) 1) s := rfl

theorem exec_diff (fr fg fb : BitVec 2) (s : State) :
    exec (.diff fr fg fb) s = chunkStep 1 (fun d => d.tail (diffPixel d.hist.prev fr fg fb) 1) s := rfl

theorem exec_luma (fgm : BitVec 6) (frg fbg : BitVec 4) (s : State) :
    exec (.luma fgm frg fbg) s = chunkStep 2 (fun d => d.tail (lumaPixel d.hist.prev fgm frg fbg) 2) s := rfl

theorem exec_run (frun : BitVec 6) (s : State) :
    exec (.run frun) s
      = chunkStep 1 (fun d => (d.pixWriteRun d.pos d.hist.prev (runPixels frun d)).advance (runPixels frun d) 1) s := rfl

theorem exec_header (w h : BitVec 32) (c cs : Byte) (s : State) :
    exec (.header w h c cs) s = execHeader w h c cs s := rfl

theorem exec_endMarker (s : State) : exec .endMarker s = execEndMarker s := rfl

/-! ### The agents' steps by phase -/

theorem decStep_busy {s : State} (h : s.dec.phase = .busy) : decStep s = runFetched (fetch s.dec) s := by
  simp only [decStep, h]

theorem decStep_rest {s : State} (h : s.dec.phase ≠ .busy) : decStep s = decHostMove s := by
  unfold decStep
  cases hp : s.dec.phase <;> first | rfl | exact absurd hp h

theorem encStep_busy {s : State} (h : s.enc.phase = .busy) :
    encStep s = if s.enc.pos < s.enc.npix then encPixel s else encFinish s := by
  simp only [encStep, h]

theorem encStep_rest {s : State} (h : s.enc.phase ≠ .busy) : encStep s = encHostMove s := by
  unfold encStep
  cases hp : s.enc.phase <;> first | rfl | exact absurd hp h

theorem decHostMove_start {s : State} {n : Nat} {rest : List DecMove} (h : s.dec.host = .start n :: rest) :
    decHostMove s = runFetched (fetchHeader (s.dec.latch n rest)) (s.withDec (s.dec.latch n rest)) := by
  simp only [decHostMove, h]

theorem encHostMove_start {s : State} {w h : BitVec 32} {c cs : Byte} {n : Nat} {rest : List EncMove}
    (hh : s.enc.host = .start w h c cs n :: rest) :
    encHostMove s = encStart w h c cs n (s.withEnc (s.enc.taken rest)) := by
  simp only [encHostMove, hh]

/-- A fetch of bytes that decode is their instruction. -/
theorem fetchAt_ok {place : Place} {d : Dec} {a n : Nat} {bytes rest : List Byte} {i : Instr}
    (h : Memory.readBytes d.str a n = .ok bytes) (hd : decode place bytes = .ok (i, rest)) :
    fetchAt place d a n = .instr i := by
  simp only [fetchAt, h, hd]

/-- A fetch of bytes that do not decode is the reason. -/
theorem fetchAt_error {place : Place} {d : Dec} {a n : Nat} {bytes : List Byte} {e : DecodeError}
    (h : Memory.readBytes d.str a n = .ok bytes) (hd : decode place bytes = .error e) :
    fetchAt place d a n = .failed e := by
  simp only [fetchAt, h, hd]

/-- Whether an agent at rest has a step enabled. -/
theorem decEnabled_resting {s : State} (h : s.dec.Resting) : decEnabled s = false := by
  unfold decEnabled
  cases hp : s.dec.phase <;> simp_all [Dec.Resting]

theorem encEnabled_resting {s : State} (h : s.enc.Resting) : encEnabled s = false := by
  unfold encEnabled
  cases hp : s.enc.phase <;> simp_all [Enc.Resting]

/-- With the encoder at rest, an enabled step of the decoder is the block's step. -/
theorem mover_dec {s : State} (he : s.enc.Resting) (hd : decEnabled s = true) : mover s = some .dec := by
  have h := encEnabled_resting he
  unfold mover
  cases s.turn <;> simp [enabled, Agent.other, h, hd]

/-- With the decoder at rest, an enabled step of the encoder is the block's step. -/
theorem mover_enc {s : State} (hd : s.dec.Resting) (he : encEnabled s = true) : mover s = some .enc := by
  have h := decEnabled_resting hd
  unfold mover
  cases s.turn <;> simp [enabled, Agent.other, h, he]

theorem step_of_mover {s : State} {a : Agent} (h : mover s = some a) :
    step s = onNext (fun t => t.withTurn a.other) (agentStep a s) := by
  simp only [step, h]

/-! ### The framing decoders -/

theorem decodeEnd_eight {bytes : List Byte} (h : bytes.length = 8) :
    decodeEnd bytes = if bytes = Config.marker then .ok (.endMarker, []) else .error .badMarker := by
  match bytes, h with
  | [_, _, _, _, _, _, _, _], _ => rfl

theorem decodeHeader_badMagic {bytes : List Byte} (h : bytes.length = 14) (hm : bytes.take 4 ≠ Config.magic) :
    decodeHeader bytes = .error .badMagic := by
  match bytes, h with
  | [m0, m1, m2, m3, _, _, _, _, _, _, _, _, _, _], _ => exact if_neg hm

theorem decodeHeader_short {bytes : List Byte} (h : bytes.length < 14) : decodeHeader bytes = .error .truncated := by
  unfold decodeHeader
  split
  · simp at h; omega
  · rfl

end Sys2Proof.Machine
end

