-- ==== Sys2Proof/Machine/Listing.lean ====
section
/-! DEFINITION. The listing syntax of R94, for display: operands are decimal, DIFF and LUMA show the true deltas, RUN the
true run length (D20). -/

namespace Sys2Proof.Machine

/-- A mnemonic and its operands, separated by commas (R94). -/
def listingLine (name : String) (operands : List Int) : String :=
  if operands.isEmpty then name else name ++ " " ++ ", ".intercalate (operands.map toString)

/-- One line of a listing (R94). -/
def listing : Instr → String
  | .rgb r g b => listingLine "RGB" [r.toNat, g.toNat, b.toNat]
  | .rgba r g b a => listingLine "RGBA" [r.toNat, g.toNat, b.toNat, a.toNat]
  | .index k => listingLine "INDEX" [k.toNat]
  | .diff fr fg fb => listingLine "DIFF" [diffDelta fr, diffDelta fg, diffDelta fb]
  | .luma fgm frg fbg => listingLine "LUMA" [lumaGreen fgm, lumaRel frg, lumaRel fbg]
  | .run frun => listingLine "RUN" [runLength frun]
  | .header w h c cs => listingLine "HEADER" [w.toNat, h.toNat, c.toNat, cs.toNat]
  | .endMarker => listingLine "END" []

end Sys2Proof.Machine
end

