-- ==== Sys2Proof/Tests/Slice0.lean ====
section
/-! SUPPORT. Small tests, expected results from spec/95_test_vectors.md or worked out by hand from the rules, and one
witness theorem for each statement that has hypotheses: a state and operands that meet them all. -/

namespace Sys2Proof.Tests

open Sys2Proof Sys2Proof.Machine

/-! ### Helpers -/

/-- The next state, if there is one. -/
def nextOf (o : Host.Outcome State Fault Refusal) : Option State :=
  match o with
  | .next s => some s
  | .fault _ => none
  | .refused _ => none

/-- The fault, if there is one. -/
def faultOf (o : Host.Outcome State Fault Refusal) : Option Fault :=
  match o with
  | .next _ => none
  | .fault r => some r
  | .refused _ => none

/-- A decoder just after the START of an `n` by 1 image, its chunk bytes placed, its previous pixel `prev`. -/
def decoding (n : BitVec 32) (channels : Byte) (prev : Pixel) (bytes : List Byte) : State :=
  State.reset.withDec
    { Dec.atReset.begin n 1 channels 0 with
      hist := History.start.setPrev prev
      str := Memory.writeBytes [] 14 bytes
      inlen := 14 + bytes.length }

/-- The same with one pixel of a 1 by 1 image counted: what is missing is the marker. -/
def finishing (bytes : List Byte) : State :=
  State.reset.withDec { (decoding 1 4 Config.startPixel bytes).dec with pos := 1 }

/-- A decoder at rest whose stream is placed and whose host has issued DEC.START. -/
def ordered (bytes : List Byte) : State :=
  State.reset.withDec
    { Dec.atReset with str := Memory.writeBytes [] 0 bytes, host := [.start bytes.length] }

/-- An encoder at rest whose pixels are placed and whose host has issued ENC.START. -/
def commissioned (w h : BitVec 32) (c cs : Byte) (bytes : List Byte) : State :=
  State.reset.withEnc
    { Enc.atReset with pix := Memory.writeBytes [] 0 bytes, host := [.start w h c cs bytes.length] }

/-- An encoder just after the START of an `n` by 1 image with 4 channels, its pixels placed. -/
def encoding (n : BitVec 32) (bytes : List Byte) : State :=
  State.reset.withEnc
    (Enc.begin n 1 4 0 bytes.length { Enc.atReset with pix := Memory.writeBytes [] 0 bytes })

/-- The common start of the vectors V40 to V56. -/
def edgeHistory : History := History.start.record ⟨100, 100, 100, 255⟩

/-- The bytes that ENC.PIXEL emits for one pixel. -/
def emitted (h : History) (run : Nat) (p : Pixel) : List Byte := encodeAll (pixelDecision h run p).1

/-- The 14 bytes of a header of a one-byte width and height. -/
def hdr (w h c cs : Byte) : List Byte := [0x71, 0x6F, 0x69, 0x66, 0, 0, 0, w, 0, 0, 0, h, c, cs]

/-- The marker's bytes (R83). -/
def mark : List Byte := [0, 0, 0, 0, 0, 0, 0, 1]

/-! ### Well-formedness -/

/-- R89: 62 and 63 are no run fields; 61 is. -/
theorem test_wellFormed_run :
    (Instr.run 62).WellFormed = false ∧ (Instr.run 63).WellFormed = false ∧ (Instr.run 61).WellFormed = true := by decide

/-- What an ill-formed RUN would be written as is another instruction (V38). -/
theorem test_illFormed_run_is_not_run :
    encode (.run 62) = [0xFE] ∧ decode .chunk [0xFF, 1, 2, 3, 4] = .ok (.rgba 1 2 3 4, []) := by decide

/-! ### Decoding -/

/-- V34, V35, V38. -/
theorem test_decode_literals :
    decode .chunk [0b11111110, 0x64, 0x96, 0xC8] = .ok (.rgb 100 150 200, [])
    ∧ decode .chunk [0b11111111, 0x64, 0x96, 0xC8, 0x80] = .ok (.rgba 100 150 200 128, []) := by decide

/-- V20. -/
theorem test_decode_index :
    decode .chunk [0b00000000] = .ok (.index 0, []) ∧ decode .chunk [0b00111111, 9] = .ok (.index 63, [9]) := by decide

/-- V24 and V26: `fr`, `fg`, `fb` from the top. -/
theorem test_decode_diff :
    decode .chunk [0b01111001] = .ok (.diff 3 2 1, []) ∧ decode .chunk [0b01011110] = .ok (.diff 1 3 2, []) := by decide

/-- V31: red-minus-green is the high nibble. -/
theorem test_decode_luma : decode .chunk [0b10110100, 0b01100011] = .ok (.luma 52 6 3, []) := by decide

/-- V33. -/
theorem test_decode_run :
    decode .chunk [0b11000000] = .ok (.run 0, []) ∧ decode .chunk [0b11111101] = .ok (.run 61, []) := by decide

/-- V37. -/
theorem test_decode_header :
    decode .start [0x71, 0x6F, 0x69, 0x66, 0, 0, 0, 0x14, 0, 0, 0, 0x0A, 3, 1] = .ok (.header 20 10 3 1, []) := by decide

/-- R83; V103: a wrong last byte is no marker. -/
theorem test_decode_end :
    decode .finish [0, 0, 0, 0, 0, 0, 0, 1] = .ok (.endMarker, [])
    ∧ decode .finish [0, 0, 0, 0, 0, 0, 0, 2] = .error .badMarker := by decide

/-- W7 and V96: bad magic; too short. -/
theorem test_decode_header_errors :
    decode .start ([0x71, 0x6F, 0x69, 0x67] ++ [0, 0, 0, 1, 0, 0, 0, 1, 3, 0]) = .error .badMagic
    ∧ decode .start ([0x78, 0x6F, 0x69, 0x66] ++ [0, 0, 0, 1, 0, 0, 0, 1, 3]) = .error .truncated := by decide

/-- V99 and V100: chunks cut short. -/
theorem test_decode_cut_short :
    decode .chunk [0xA0] = .error .truncated ∧ decode .chunk [0xFE, 0x0A, 0x14] = .error .truncated := by decide

/-! ### The table's words -/

/-- Each row's fixed bits alone. -/
theorem test_tableWords :
    decodeTableWord 32 0xFE = some (.rgb 0 0 0) ∧ decodeTableWord 40 0xFF = some (.rgba 0 0 0 0)
    ∧ decodeTableWord 8 0x00 = some (.index 0) ∧ decodeTableWord 8 0x40 = some (.diff 0 0 0)
    ∧ decodeTableWord 16 0x80 = some (.luma 0 0 0) ∧ decodeTableWord 8 0xC0 = some (.run 0)
    ∧ decodeTableWord 112 0x716F6966 = some (.header 0 0 0 0) ∧ decodeTableWord 64 1 = some .endMarker := by decide

/-- A chunk placed at reset runs as the next step: one pixel is produced. -/
theorem test_step_runs_chunk :
    (nextOf (step (State.reset.withFetchWord 32 0xC89664FE))).map (fun t => (t.dec.hist.prev, t.dec.pos, t.dec.pc))
      = some (⟨0x64, 0x96, 0xC8, 255⟩, 1, 18) := by decide

/-- A header placed at reset runs as the next step: its zero sizes raise InvalidHeader (R162). -/
theorem test_step_runs_header :
    (nextOf (step (State.reset.withFetchWord 112 0x716F6966))).map (fun t => (t.dec.phase, t.dec.err))
      = some (.error, .invalidHeader) := by decide

/-- An end marker placed at reset runs as the next step. -/
theorem test_step_runs_end :
    (nextOf (step (State.reset.withFetchWord 64 1))).map (fun t => (t.dec.phase, t.dec.err)) = some (.done, .none) := by decide

/-! ### Arithmetic -/

/-- V2, V3, V5, V9, V10. -/
theorem test_hash :
    Machine.hash ⟨0, 0, 0, 255⟩ = 53 ∧ Machine.hash ⟨255, 255, 255, 255⟩ = 38 ∧ Machine.hash ⟨128, 0, 0, 255⟩ = 53
    ∧ Machine.hash ⟨1, 0, 255, 255⟩ = 49 ∧ Machine.hash ⟨100, 150, 200, 128⟩ = 18 := by decide

/-- V11 to V16. -/
theorem test_sdelta :
    sdelta 2 253 = 5 ∧ sdelta 0 255 = 1 ∧ sdelta 255 0 = -1 ∧ sdelta 128 0 = -128 ∧ sdelta 0 128 = -128
    ∧ sdelta 127 0 = 127 := by decide

/-- V11, V13, V15. -/
theorem test_uadd : uadd 253 5 = 2 ∧ uadd 0 (-1) = 255 ∧ uadd 128 (-128) = 0 := by decide

/-! ### Chunks -/

/-- V70: alpha is `prev`'s; the entry is at 7. -/
theorem test_rgb :
    (nextOf (exec (.rgb 100 150 200) (decoding 2 4 ⟨1, 0, 255, 255⟩ [0xFE, 0x64, 0x96, 0xC8]))).map
      (fun t => (t.dec.hist.prev, t.dec.hist.lookup 7, t.dec.pos, t.dec.pc))
      = some (⟨100, 150, 200, 255⟩, ⟨100, 150, 200, 255⟩, 1, 18) := by decide

/-- V100: cut short. -/
theorem test_rgb_cut_short :
    (nextOf (exec (.rgb 10 20 0) (decoding 2 4 Config.startPixel [0xFE, 0x0A, 0x14]))).map
      (fun t => (t.dec.phase, t.dec.err)) = some (.error, .truncatedInput) := by decide

/-- V71, and four bytes of output (R55). -/
theorem test_rgba :
    (nextOf (exec (.rgba 100 150 200 128) (decoding 2 4 ⟨100, 150, 200, 255⟩ [0xFF, 0x64, 0x96, 0xC8, 0x80]))).map
      (fun t => (t.dec.hist.lookup 18, t.dec.pc, t.dec.pix))
      = some (⟨100, 150, 200, 128⟩, 19, [(0, 100), (1, 150), (2, 200), (3, 128)]) := by decide

/-- R178: with 3 channels RGBA is legal and its alpha is not written. -/
theorem test_rgba_three_channels :
    (nextOf (exec (.rgba 1 2 3 4) (decoding 2 3 Config.startPixel [0xFF, 1, 2, 3, 4]))).map
      (fun t => (t.dec.hist.prev.a, t.dec.pix)) = some (4, [(0, 1), (1, 2), (2, 3)]) := by decide

/-- V81: a never-written entry; the cache stays, `prev` moves. -/
theorem test_index :
    (nextOf (exec (.index 5) (decoding 2 4 Config.startPixel [5]))).map
      (fun t => (t.dec.hist.prev, t.dec.hist.cache == History.start.cache, t.dec.pos, t.dec.pc))
      = some (⟨0, 0, 0, 0⟩, true, 1, 15) := by decide

/-- V73 and the wrap of blue. -/
theorem test_diff :
    (nextOf (exec (.diff 3 2 1) (decoding 2 4 Config.startPixel [0x79]))).map
      (fun t => (t.dec.hist.prev, t.dec.hist.lookup 49, t.dec.pc))
      = some (⟨1, 0, 255, 255⟩, ⟨1, 0, 255, 255⟩, 15) := by decide

/-- V82: DIFF 0,0,0 is a pixel equal to `prev`, recorded. -/
theorem test_diff_zero :
    (nextOf (exec (.diff 2 2 2) (decoding 2 4 ⟨9, 9, 9, 255⟩ [0x6A]))).map
      (fun t => (t.dec.hist.prev, t.dec.hist.lookup (hash ⟨9, 9, 9, 255⟩)))
      = some (⟨9, 9, 9, 255⟩, ⟨9, 9, 9, 255⟩) := by decide

/-- V76: red and blue move by -40. -/
theorem test_luma :
    (nextOf (exec (.luma 0 0 0) (decoding 2 4 Config.startPixel [0x80, 0]))).map
      (fun t => (t.dec.hist.prev, t.dec.hist.lookup 5, t.dec.pc))
      = some (⟨216, 224, 216, 255⟩, ⟨216, 224, 216, 255⟩, 16) := by decide

/-- V78: red wraps from 253 to 2. -/
theorem test_luma_wraps :
    (nextOf (exec (.luma 32 13 8) (decoding 2 4 ⟨253, 0, 0, 255⟩ [0xA0, 0xD8]))).map
      (fun t => t.dec.hist.prev) = some ⟨2, 0, 0, 255⟩ := by decide

/-- V79. -/
theorem test_run :
    (nextOf (exec (.run 1) (decoding 8 4 Config.startPixel [0xC1]))).map
      (fun t => (t.dec.pos, t.dec.pc, t.dec.hist == History.start, t.dec.pix.length))
      = some (2, 15, true, 8) := by decide

/-- V80: a run longer than the image is clamped. -/
theorem test_run_clamped :
    (nextOf (exec (.run 4) (decoding 3 3 Config.startPixel [0xC4]))).map
      (fun t => (t.dec.pos, t.dec.pix.length)) = some (3, 9) := by decide

/-! ### Framing -/

/-- V105: any colorspace passes. -/
theorem test_header :
    (nextOf (decStep (ordered (hdr 1 1 4 7 ++ [0xC0] ++ mark)))).map
      (fun t => (t.dec.phase, t.dec.colorspace, t.dec.npix, t.dec.pc)) = some (.busy, 7, 1, 14) := by decide

/-- V96 and V97: the length comes first; five channels. -/
theorem test_header_errors :
    (nextOf (decStep (ordered [0x78, 0x6F, 0x69, 0x66, 0, 0, 0, 1, 0, 0, 0, 1, 3]))).map (fun t => t.dec.err)
      = some .truncatedInput
    ∧ (nextOf (decStep (ordered (hdr 1 1 5 0 ++ [0xC0] ++ mark)))).map (fun t => t.dec.err)
      = some .invalidHeader := by decide

/-- V104: bytes after the marker do not matter. -/
theorem test_end : (nextOf (decStep (finishing (mark ++ [0xAA, 0xBB])))).map (fun t => (t.dec.phase, t.dec.pc))
    = some (.done, 14) := by decide

/-- V103: a wrong marker. -/
theorem test_end_wrong :
    (nextOf (decStep (finishing [0, 0, 0, 0, 0, 0, 0, 2]))).map (fun t => (t.dec.phase, t.dec.err))
      = some (.error, .truncatedInput) := by decide

/-! ### The encoder -/

/-- V90, V91, V93, V94. -/
theorem test_encStart_errors :
    encStartError 0 5 4 0 = .invalidDimensions ∧ encStartError 0 5 7 0 = .invalidDimensions
    ∧ encStartError 1 1 5 3 = .invalidChannelCount ∧ encStartError 1 1 4 3 = .bufferSizeMismatch := by decide

/-- V40 to V44: DIFF's edges. -/
theorem test_encPixel_diff_edges :
    emitted edgeHistory 0 ⟨101, 101, 101, 255⟩ = [0x7F] ∧ emitted edgeHistory 0 ⟨98, 98, 98, 255⟩ = [0x40]
    ∧ emitted edgeHistory 0 ⟨102, 100, 100, 255⟩ = [0xA0, 0xA8]
    ∧ emitted edgeHistory 0 ⟨97, 98, 98, 255⟩ = [0x9E, 0x78] := by decide

/-- V45 to V52: LUMA's edges. -/
theorem test_encPixel_luma_edges :
    emitted edgeHistory 0 ⟨131, 131, 131, 255⟩ = [0xBF, 0x88]
    ∧ emitted edgeHistory 0 ⟨132, 132, 132, 255⟩ = [0xFE, 0x84, 0x84, 0x84]
    ∧ emitted edgeHistory 0 ⟨68, 68, 68, 255⟩ = [0x80, 0x88]
    ∧ emitted edgeHistory 0 ⟨107, 100, 100, 255⟩ = [0xA0, 0xF8]
    ∧ emitted edgeHistory 0 ⟨108, 100, 100, 255⟩ = [0xFE, 0x6C, 0x64, 0x64]
    ∧ emitted edgeHistory 0 ⟨91, 100, 100, 255⟩ = [0xFE, 0x5B, 0x64, 0x64] := by decide

/-- V54, V56, V62, V65, V66. -/
theorem test_encPixel_others :
    emitted edgeHistory 0 ⟨101, 100, 100, 254⟩ = [0xFF, 0x65, 0x64, 0x64, 0xFE]
    ∧ emitted edgeHistory 0 ⟨228, 228, 228, 255⟩ = [0xFE, 0xE4, 0xE4, 0xE4]
    ∧ emitted History.start 0 ⟨0, 0, 0, 0⟩ = [0x00]
    ∧ emitted History.start 61 ⟨0, 0, 0, 255⟩ = [0xFD]
    ∧ emitted History.start 2 ⟨1, 0, 255, 255⟩ = [0xC1, 0x79] := by decide

/-- V95: the whole stream of one pixel. -/
theorem test_encodeImage :
    encodeImage [0x61, 0x62, 0x63] 1 1 3 0
      = .ok (hdr 1 1 3 0 ++ [0xFE, 0x61, 0x62, 0x63] ++ mark) := by decide

/-- R94: DIFF shows true deltas, RUN the true length (P1's listing). -/
theorem test_listing :
    listing (.diff 3 2 1) = "DIFF 1, 0, -1" ∧ listing (.run 61) = "RUN 62" ∧ listing .endMarker = "END" := by decide

/-! ### Witnesses of the statements' hypotheses

Each theorem names the obligation, and gives for each clause a state and operands that meet its hypotheses together. -/

/-- EncodeThenDecode, at the last well-formed RUN. -/
theorem witness_EncodeThenDecode : (Instr.run 61).WellFormed = true ∧ Instr.endMarker.WellFormed = true := by decide

/-- DecodeThenEncode, one for each place. -/
theorem witness_DecodeThenEncode :
    decode .start (hdr 1 1 3 0 ++ [0xC0]) = .ok (.header 1 1 3 0, [0xC0])
    ∧ decode .chunk [0xFD, 7] = .ok (.run 61, [7]) ∧ decode .finish mark = .ok (.endMarker, []) := by decide

/-- FirstByteSelectsKind, at both ends of each range. -/
theorem witness_FirstByteSelectsKind :
    decodeChunk [0x00] = .ok (.index 0, []) ∧ decodeChunk [0x3F] = .ok (.index 63, [])
    ∧ decodeChunk [0x40] = .ok (.diff 0 0 0, []) ∧ decodeChunk [0x7F] = .ok (.diff 3 3 3, [])
    ∧ decodeChunk [0x80, 0] = .ok (.luma 0 0 0, []) ∧ decodeChunk [0xBF, 0xFF] = .ok (.luma 63 15 15, [])
    ∧ decodeChunk [0xC0] = .ok (.run 0, []) ∧ decodeChunk [0xFD] = .ok (.run 61, [])
    ∧ decodeChunk [0xFE, 1, 2, 3] = .ok (.rgb 1 2 3, []) ∧ decodeChunk [0xFF, 1, 2, 3, 4] = .ok (.rgba 1 2 3 4, [])
    ∧ chunkSize 0xBF = 2 ∧ chunkSize 0xC0 = 1 ∧ chunkSize 0xFE = 4 ∧ chunkSize 0xFF = 5 := by decide

/-- DiffFieldsAreBiased, at both ends of a delta (V21, V22). -/
theorem witness_DiffFieldsAreBiased :
    ((-2 : Int) ≤ -2 ∧ (-2 : Int) ≤ 1) ∧ encode (.diff (diffField (-2)) (diffField (-2)) (diffField (-2))) = [0x40]
    ∧ ((-2 : Int) ≤ 1 ∧ (1 : Int) ≤ 1) ∧ encode (.diff (diffField 1) (diffField 1) (diffField 1)) = [0x7F] := by decide

/-- LumaFieldsAreBiased, at both ends (V27, V28). -/
theorem witness_LumaFieldsAreBiased :
    ((-32 : Int) ≤ -32 ∧ (-8 : Int) ≤ -8)
    ∧ encode (.luma (lumaGreenField (-32)) (lumaRelField (-8)) (lumaRelField (-8))) = [0x80, 0x00]
    ∧ ((31 : Int) ≤ 31 ∧ (7 : Int) ≤ 7)
    ∧ encode (.luma (lumaGreenField 31) (lumaRelField 7) (lumaRelField 7)) = [0xBF, 0xFF] := by decide

/-- RunFieldIsBiased, at both ends (V33). -/
theorem witness_RunFieldIsBiased :
    (61 : BitVec 6).toNat ≤ 61 ∧ encode (.run (runField 1)) = [0xC0] ∧ encode (.run (runField 62)) = [0xFD] := by decide

/-- SignedDeltaIsUnique, both sides, at both ends. -/
theorem witness_SignedDeltaIsUnique :
    (sdelta 128 0 = -128 ∧ wrap8 (0 + -128) = 128) ∧ (sdelta 127 0 = 127 ∧ wrap8 (0 + 127) = 127) := by decide

/-- PixelBufferLayout, 3 and 4 channels. -/
theorem witness_PixelBufferLayout :
    (let e : Enc := { Enc.atReset with channels := 3, pix := Memory.writeBytes [] 0 [1, 2, 3, 4, 5, 6] }
     e.channels = 3 ∧ Memory.readBytes e.pix (1 * 3) 3 = .ok [4, 5, 6])
    ∧ (let e : Enc := { Enc.atReset with channels := 4, pix := Memory.writeBytes [] 0 [1, 2, 3, 4] }
       e.channels = 4 ∧ Memory.readBytes e.pix (0 * 4) 4 = .ok [1, 2, 3, 4])
    ∧ (decoding 1 3 Config.startPixel []).dec.channels = 3 ∧ (decoding 1 4 Config.startPixel []).dec.channels = 4 := by
  decide

/-- RgbChunk. -/
theorem witness_RgbChunk :
    (let d := (decoding 1 4 Config.startPixel [0xFE, 1, 2, 3]).dec
     d.phase = .busy ∧ d.pos < d.npix ∧ d.pc + 4 ≤ d.inlen)
    ∧ (let d := (decoding 1 4 Config.startPixel [0xFE, 1, 2]).dec
       d.phase = .busy ∧ d.pos < d.npix ∧ d.inlen < d.pc + 4) := by decide

/-- RgbaChunk. -/
theorem witness_RgbaChunk :
    (let d := (decoding 1 4 Config.startPixel [0xFF, 1, 2, 3, 4]).dec
     d.phase = .busy ∧ d.pos < d.npix ∧ d.pc + 5 ≤ d.inlen)
    ∧ (let d := (decoding 1 4 Config.startPixel [0xFF, 1, 2, 3]).dec
       d.phase = .busy ∧ d.pos < d.npix ∧ d.inlen < d.pc + 5) := by decide

/-- IndexChunk, DiffChunk and RunChunk: one byte, or none. -/
theorem witness_IndexChunk_DiffChunk_RunChunk :
    (let d := (decoding 1 4 Config.startPixel [0x05]).dec
     d.phase = .busy ∧ d.pos < d.npix ∧ d.pc + 1 ≤ d.inlen)
    ∧ (let d := (decoding 1 4 Config.startPixel []).dec
       d.phase = .busy ∧ d.pos < d.npix ∧ d.inlen < d.pc + 1) := by decide

/-- RunChunk's inner clauses: a pixel of the run and a byte of it, an address below it and one at its end. -/
theorem witness_RunChunk_addresses :
    let d := { (decoding 8 4 Config.startPixel [0xC1]).dec with pos := 1 }
    let m := min ((1 : BitVec 6).toNat + 1) (d.npix - d.pos)
    (1 < m ∧ 3 < pixelSize d.channels) ∧ 3 < d.pos * pixelSize d.channels
    ∧ (d.pos + m) * pixelSize d.channels ≤ 12 := by decide

/-- LumaChunk. -/
theorem witness_LumaChunk :
    (let d := (decoding 1 4 Config.startPixel [0x80, 0]).dec
     d.phase = .busy ∧ d.pos < d.npix ∧ d.pc + 2 ≤ d.inlen)
    ∧ (let d := (decoding 1 4 Config.startPixel [0x80]).dec
       d.phase = .busy ∧ d.pos < d.npix ∧ d.inlen < d.pc + 2) := by decide

/-- OnePixelChunkFrame, with an address before the stored bytes and one after them. -/
theorem witness_OnePixelChunkFrame :
    let s := (decoding 2 3 Config.startPixel [0x05]).withDec { (decoding 2 3 Config.startPixel [0x05]).dec with pos := 1 }
    (Instr.index 5).place = .chunk ∧ (∀ frun, Instr.index 5 ≠ .run frun) ∧ s.dec.pc + (Instr.index 5).size ≤ s.dec.inlen
    ∧ (nextOf (exec (.index 5) s)).isSome = true
    ∧ 2 < s.dec.pos * pixelSize s.dec.channels
    ∧ s.dec.pos * pixelSize s.dec.channels + pixelSize s.dec.channels ≤ 6
    ∧ ∃ k, k ≠ Machine.hash Config.emptyPixel := by
  refine ⟨rfl, fun _ => by simp, by decide, by decide, by decide, by decide, 1, by decide⟩

/-- ChunkMakesProgress, both outcomes. -/
theorem witness_ChunkMakesProgress :
    (Instr.run 61).place = .chunk ∧ (Instr.run 61).WellFormed = true
    ∧ (nextOf (exec (.run 61) (decoding 62 3 Config.startPixel [0xFD]))).map (fun t => t.dec.pos) = some 62
    ∧ (nextOf (exec (.run 61) (decoding 62 3 Config.startPixel []))).map (fun t => t.dec.phase) = some .error := by decide

/-- A decoder at rest whose `inlen` is `n`. -/
def restingWith (n : Nat) : State := State.reset.withDec { Dec.atReset with inlen := n }

/-- HeaderBeginsDecode, with 3 and with 4 channels, at the shortest `inlen`. -/
theorem witness_HeaderBeginsDecode :
    (restingWith 14).dec.phase ≠ .busy ∧ 14 ≤ (restingWith 14).dec.inlen ∧ (1 : BitVec 32) ≠ 0
    ∧ ((3 : Byte) = 3 ∨ (3 : Byte) = 4) ∧ ((4 : Byte) = 3 ∨ (4 : Byte) = 4) := by decide

/-- HeaderChecks: short at 13; at 14 a zero width, a zero height, two channels. -/
theorem witness_HeaderChecks :
    ((restingWith 13).dec.phase ≠ .busy ∧ (restingWith 13).dec.inlen < 14)
    ∧ ((restingWith 14).dec.phase ≠ .busy ∧ 14 ≤ (restingWith 14).dec.inlen)
    ∧ ((0 : BitVec 32) = 0 ∨ (1 : BitVec 32) = 0 ∨ ((3 : Byte) ≠ 3 ∧ (3 : Byte) ≠ 4))
    ∧ ((1 : BitVec 32) = 0 ∨ (0 : BitVec 32) = 0 ∨ ((3 : Byte) ≠ 3 ∧ (3 : Byte) ≠ 4))
    ∧ ((1 : BitVec 32) = 0 ∨ (1 : BitVec 32) = 0 ∨ ((2 : Byte) ≠ 3 ∧ (2 : Byte) ≠ 4)) := by decide

/-- DecStartValidates: too short; a readable header with each defect, and with none. -/
theorem witness_DecStartValidates :
    ((ordered [0x71]).dec.phase ≠ .busy ∧ (ordered [0x71]).dec.host = [.start 1])
    ∧ (∀ x ∈ [(hdr 1 1 3 7).set 0 0x72, hdr 0 1 3 7, hdr 1 0 3 7, hdr 1 1 5 7, hdr 1 1 3 7],
        (ordered x).dec.phase ≠ .busy ∧ (ordered x).dec.host = [.start 14]
        ∧ Memory.readBytes (ordered x).dec.str 0 14 = .ok x)
    ∧ hdr 1 1 3 7 = [0x71, 0x6F, 0x69, 0x66] ++ [0, 0, 0, 1] ++ [0, 0, 0, 1] ++ [3, 7] := by decide

/-- EndMarkerFinishes. -/
theorem witness_EndMarkerFinishes :
    let d := (finishing mark).dec
    d.phase = .busy ∧ d.pos = d.npix ∧ d.pc + 8 ≤ d.inlen := by decide

/-- FinishChecksMarker: seven bytes left; eight, wrong and right. -/
theorem witness_FinishChecksMarker :
    (let d := (finishing (mark.take 7)).dec
     d.phase = .busy ∧ d.pos = d.npix ∧ d.inlen < d.pc + 8)
    ∧ (let d := (finishing [0, 0, 0, 0, 0, 0, 0, 2]).dec
       d.phase = .busy ∧ d.pos = d.npix ∧ d.pc + 8 ≤ d.inlen
       ∧ Memory.readBytes d.str d.pc 8 = .ok [0, 0, 0, 0, 0, 0, 0, 2])
    ∧ (let d := (finishing mark).dec
       d.phase = .busy ∧ d.pos = d.npix ∧ d.pc + 8 ≤ d.inlen ∧ Memory.readBytes d.str d.pc 8 = .ok mark) := by decide

/-- NotEnabledStops: a chunk at rest and with no pixel missing, the marker at rest and with one missing, a header while
BUSY. -/
theorem witness_NotEnabledStops :
    ¬(State.reset.dec.phase = .busy ∧ State.reset.dec.pos < State.reset.dec.npix)
    ∧ ¬((finishing mark).dec.phase = .busy ∧ (finishing mark).dec.pos < (finishing mark).dec.npix)
    ∧ ¬(State.reset.dec.phase = .busy ∧ State.reset.dec.pos = State.reset.dec.npix)
    ∧ ¬((decoding 1 4 Config.startPixel mark).dec.phase = .busy
        ∧ (decoding 1 4 Config.startPixel mark).dec.pos = (decoding 1 4 Config.startPixel mark).dec.npix)
    ∧ (finishing mark).dec.phase = .busy := by decide

/-- OnlyStartLeavesRest: a START that begins, of each agent. -/
theorem witness_OnlyStartLeavesRest :
    ((commissioned 1 1 3 0 [1, 2, 3]).enc.phase ≠ .busy
      ∧ (nextOf (step (commissioned 1 1 3 0 [1, 2, 3]))).map (fun t => t.enc.phase) = some .busy)
    ∧ ((ordered (hdr 1 1 3 0)).dec.phase ≠ .busy
      ∧ (nextOf (step (ordered (hdr 1 1 3 0)))).map (fun t => t.dec.phase) = some .busy) := by decide

/-- StepRunsDecodedChunk. -/
theorem witness_StepRunsDecodedChunk :
    let s := decoding 1 4 Config.startPixel [0x79]
    mover s = some .dec ∧ s.dec.phase = .busy ∧ s.dec.pos < s.dec.npix
    ∧ s.dec.pc + (Instr.diff 3 2 1).size ≤ s.dec.inlen
    ∧ Memory.readBytes s.dec.str s.dec.pc (Instr.diff 3 2 1).size = .ok [0x79]
    ∧ decode .chunk [0x79] = .ok (.diff 3 2 1, []) := by decide

/-- StepRunsDecodedHeader. -/
theorem witness_StepRunsDecodedHeader :
    let s := ordered (hdr 1 1 3 0)
    mover s = some .dec ∧ s.dec.phase ≠ .busy ∧ s.dec.host = [.start 14] ∧ 14 ≤ 14
    ∧ Memory.readBytes s.dec.str 0 14 = .ok (hdr 1 1 3 0)
    ∧ decode .start (hdr 1 1 3 0) = .ok (.header 1 1 3 0, []) := by decide

/-- StepRunsEndMarker. -/
theorem witness_StepRunsEndMarker :
    let s := finishing mark
    mover s = some .dec ∧ s.dec.phase = .busy ∧ s.dec.pos = s.dec.npix ∧ s.dec.pc + 8 ≤ s.dec.inlen
    ∧ Memory.readBytes s.dec.str s.dec.pc 8 = .ok mark ∧ decode .finish mark = .ok (.endMarker, []) := by decide

/-- StepRunsEncoder: a pixel left, none left, and a START waiting. -/
theorem witness_StepRunsEncoder :
    (let s := encoding 1 [1, 2, 3, 4]
     mover s = some .enc ∧ s.enc.phase = .busy ∧ s.enc.pos < s.enc.npix)
    ∧ (let s := (encoding 1 [1, 2, 3, 4]).withEnc { (encoding 1 [1, 2, 3, 4]).enc with pos := 1 }
       mover s = some .enc ∧ s.enc.phase = .busy ∧ s.enc.pos = s.enc.npix)
    ∧ (let s := commissioned 1 1 3 0 [1, 2, 3]
       mover s = some .enc ∧ s.enc.phase ≠ .busy ∧ s.enc.host = [.start 1 1 3 0 3]) := by decide

/-- StepStopsOnlyAtUnwrittenBytes: a BUSY agent whose input nobody placed, of each kind. -/
theorem witness_StepStopsOnlyAtUnwrittenBytes :
    faultOf (step (encoding 1 [])) = some (.unwrittenByte .encPix 0)
    ∧ faultOf (step ((decoding 1 4 Config.startPixel [0xC0]).withDec
        { (decoding 1 4 Config.startPixel [0xC0]).dec with str := [] })) = some (.unwrittenByte .decStr 14) := by decide

/-- AgentsDoNotInterfere: both agents at work at once. -/
theorem witness_AgentsDoNotInterfere :
    let s := (encoding 1 [1, 2, 3, 4]).withDec (decoding 1 4 Config.startPixel [0x79]).dec
    (nextOf (encStep s)).isSome = true ∧ (nextOf (decStep s)).isSome = true := by decide

/-- InputsStayWhileBusy. -/
theorem witness_InputsStayWhileBusy :
    let s := (encoding 1 [1, 2, 3, 4]).withDec (decoding 1 4 Config.startPixel [0x79]).dec
    (nextOf (step s)).isSome = true ∧ s.enc.phase = .busy ∧ s.dec.phase = .busy := by decide

/-- StartForgetsEarlierOperations: agents that differ in what an earlier operation left. -/
theorem witness_StartForgetsEarlierOperations :
    (let s := ordered (hdr 1 1 3 0)
     let t := s.withDec { s.dec with hist := edgeHistory, pos := 9, phase := .done }
     s.dec.phase ≠ .busy ∧ t.dec.phase ≠ .busy ∧ s.dec.host = [.start 14] ∧ t.dec.host = s.dec.host
     ∧ t.dec.str = s.dec.str ∧ t.dec.free = s.dec.free ∧ (nextOf (decStep s)).isSome = true ∧ t.dec ≠ s.dec)
    ∧ (let s := commissioned 1 1 3 0 [1, 2, 3]
       let t := s.withEnc { s.enc with hist := edgeHistory, run := 9, phase := .done }
       s.enc.phase ≠ .busy ∧ t.enc.phase ≠ .busy ∧ s.enc.host = [.start 1 1 3 0 3] ∧ t.enc.host = s.enc.host
       ∧ t.enc.pix = s.enc.pix ∧ t.enc.free = s.enc.free ∧ (nextOf (encStep s)).isSome = true ∧ t.enc ≠ s.enc) := by
  decide

/-- EncStartChecks: each check failing alone. -/
theorem witness_EncStartChecks :
    State.reset.enc.phase ≠ .busy
    ∧ ((0 : BitVec 32) = 0 ∨ (5 : BitVec 32) = 0) ∧ ((5 : BitVec 32) = 0 ∨ (0 : BitVec 32) = 0)
    ∧ ((1 : BitVec 32) ≠ 0 ∧ (5 : Byte) ≠ 3 ∧ (5 : Byte) ≠ 4)
    ∧ ((1 : BitVec 32) ≠ 0 ∧ ((4 : Byte) = 3 ∨ (4 : Byte) = 4)
      ∧ 3 ≠ (1 : BitVec 32).toNat * (1 : BitVec 32).toNat * (4 : Byte).toNat) := by decide

/-- EncStartBeginsEncode, at the largest size the header holds. -/
theorem witness_EncStartBeginsEncode :
    State.reset.enc.phase ≠ .busy ∧ (0xFFFFFFFF : BitVec 32) ≠ 0 ∧ ((3 : Byte) = 3 ∨ (3 : Byte) = 4)
    ∧ ((4 : Byte) = 3 ∨ (4 : Byte) = 4) := by decide

/-- EncPixelDecision: a pixel equal to `prev` that is the 62nd, and a pixel that is not equal. -/
theorem witness_EncPixelDecision :
    (let e := { (encoding 1 [0, 0, 0, 255]).enc with run := 61 }
     e.phase = .busy ∧ e.pos < e.npix ∧ e.run ≤ 61 ∧ e.pixRead e.pos = .ok e.hist.prev)
    ∧ (let e := (encoding 1 [1, 2, 3, 4]).enc
       e.phase = .busy ∧ e.pos < e.npix ∧ e.run ≤ 61 ∧ e.pixRead e.pos = .ok ⟨1, 2, 3, 4⟩) := by decide

/-- EncFinishWritesMarker, with the longest pending run. -/
theorem witness_EncFinishWritesMarker :
    let e := { (encoding 61 []).enc with pos := 61, run := 61 }
    e.phase = .busy ∧ e.pos = e.npix ∧ e.run ≤ 61 := by decide

/-- OpaquePixelsNeedNoAlpha, with a hit at the entry of an opaque pixel. -/
theorem witness_OpaquePixelsNeedNoAlpha :
    let h := edgeHistory.setPrev ⟨7, 7, 7, 255⟩
    h.prev.a = 255 ∧ Instr.index 17 ∈ (pixelDecision h 0 ⟨100, 100, 100, 255⟩).1 := by decide

/-- EncoderNeverEmits: an emitted INDEX, DIFF, LUMA, RGB, RGBA and RUN, and a stream with two RUNs in a row. -/
theorem witness_EncoderNeverEmits :
    (pixelDecision (edgeHistory.setPrev ⟨7, 7, 7, 255⟩) 0 ⟨100, 100, 100, 255⟩).1 = [.index 17]
    ∧ (pixelDecision History.start 0 ⟨1, 0, 255, 255⟩).1 = [.diff 3 2 1]
    ∧ (pixelDecision edgeHistory 0 ⟨131, 131, 131, 255⟩).1 = [.luma 63 8 8]
    ∧ (pixelDecision edgeHistory 0 ⟨132, 132, 132, 255⟩).1 = [.rgb 132 132 132]
    ∧ (pixelDecision edgeHistory 0 ⟨100, 100, 100, 254⟩).1 = [.rgba 100 100 100 254]
    ∧ (pixelDecision History.start 61 ⟨0, 0, 0, 255⟩).1 = [.run 61]
    ∧ encodeLoop History.start 61 [⟨0, 0, 0, 255⟩, ⟨0, 0, 0, 255⟩] = [] ++ .run 61 :: .run 0 :: [] := by decide

/-- RunCap: a pixel on each side. -/
theorem witness_RunCap : (⟨0, 0, 0, 255⟩ : Pixel) = ⟨0, 0, 0, 255⟩ ∧ (⟨10, 20, 30, 255⟩ : Pixel) ≠ ⟨0, 0, 0, 255⟩ := by decide

/-- StreamLengthBounds and RoundTrip, 3 and 4 channels (V95). -/
theorem witness_StreamLengthBounds_RoundTrip :
    encodeImage [0x61, 0x62, 0x63] 1 1 3 0 = .ok (hdr 1 1 3 0 ++ [0xFE, 0x61, 0x62, 0x63] ++ mark)
    ∧ encodeImage [0, 0, 0, 0] 1 1 4 0 = .ok (hdr 1 1 4 0 ++ [0x00] ++ mark) := by decide

/-- LockStep: a pending run, flushed, and a DIFF behind it (V66). -/
theorem witness_LockStep :
    let s := decoding 8 4 Config.startPixel [0xC1, 0x79]
    s.dec.phase = .busy ∧ s.dec.pos + 2 + 1 ≤ s.dec.npix
    ∧ s.dec.pc + (encodeAll (pixelDecision s.dec.hist 2 ⟨1, 0, 255, 255⟩).1).length ≤ s.dec.inlen := by decide

/-- EncoderIsEncodeFunction: an image that is accepted and one that is not. -/
theorem witness_EncoderIsEncodeFunction :
    (let s := commissioned 1 1 3 0 [0x61, 0x62, 0x63]
     s.enc.phase ≠ .busy ∧ s.enc.host = [.start 1 1 3 0 3] ∧ Memory.readBytes s.enc.pix 0 3 = .ok [0x61, 0x62, 0x63]
     ∧ s.dec.phase ≠ .busy ∧ s.dec.host = [])
    ∧ encodeImage [0x61, 0x62, 0x63] 1 1 4 0 = .error .bufferSizeMismatch := by decide

/-- DecoderIsDecodeFunction: a stream that is an image (V105) and one that is not. -/
theorem witness_DecoderIsDecodeFunction :
    (let s := ordered (hdr 1 1 4 7 ++ [0xC0] ++ mark)
     s.dec.phase ≠ .busy ∧ s.dec.host = [.start 23]
     ∧ Memory.readBytes s.dec.str 0 23 = .ok (hdr 1 1 4 7 ++ [0xC0] ++ mark) ∧ s.enc.phase ≠ .busy ∧ s.enc.host = [])
    ∧ decodeStream (hdr 1 1 4 7 ++ [0xC0] ++ mark)
      = .ok { pixels := [0, 0, 0, 255], width := 1, height := 1, channels := 4, colorspace := 7 }
    ∧ decodeStream (hdr 1 1 3 0 ++ [0xA0]) = .error .truncatedInput := by decide

/-! ### Witnesses that need the invariant -/

/-- Both agents just after their STARTs, their inputs placed. -/
def bothStarted : State :=
  (encoding 1 [1, 2, 3, 4]).withDec (decoding 1 4 Config.startPixel [0xC0]).dec

theorem bothStarted_enc_inv : bothStarted.enc.Inv where
  pix_wf := by decide
  str_wf := by decide
  err_iff := by decide
  err_of := .inl rfl
  working := fun _ =>
    { channels_ok := .inr rfl
      width_pos := by decide
      height_pos := by decide
      npix_eq := rfl
      pixlen_eq := by decide
      pos_le := by decide
      run_le := by decide
      run_le_pos := by decide
      indexed := indexed_start
      opaque_alpha := fun h => absurd h (by decide)
      wp_ge := by decide
      written := fun a => by
        have h : bothStarted.enc.str = Memory.writeBytes [] 0 (encode (.header 1 1 4 0)) := rfl
        rw [h, isSome_read_writeBytes]
        have : bothStarted.enc.wp = 14 := by decide
        have hl : (encode (.header 1 1 4 0)).length = 14 := rfl
        rw [hl]
        simp; omega }
  finished := fun h => absurd h (by decide)

theorem bothStarted_dec_inv : bothStarted.dec.Inv where
  str_wf := by decide
  pix_wf := by decide
  err_iff := by decide
  err_of := .inl rfl
  working := fun _ =>
    { channels_ok := .inr rfl
      width_pos := by decide
      height_pos := by decide
      npix_eq := rfl
      pos_le := by decide
      pc_ge := by decide
      pc_le := by decide
      indexed := indexed_setPrev _ indexed_start
      written := fun a => by
        have h : bothStarted.dec.pix = [] := rfl
        have h0 : bothStarted.dec.pos = 0 := rfl
        simp [h, h0] }
  finished := fun h => absurd h (by decide)

theorem bothStarted_inv : bothStarted.Inv := ⟨bothStarted_enc_inv, bothStarted_dec_inv⟩

/-- StepKeepsInvariant. -/
theorem witness_StepKeepsInvariant : bothStarted.Inv ∧ (nextOf (step bothStarted)).isSome = true :=
  ⟨bothStarted_inv, by decide⟩

theorem bothStarted_enc_loaded : bothStarted.enc.Loaded := by
  have h : bothStarted.enc.pixlen = 4 := rfl
  unfold Enc.Loaded
  rw [h]
  decide

/-- LoadedBlockNeverStops, both agents BUSY; the decoder's bytes 0 to 13, the header it has read, are placed too. -/
theorem witness_LoadedBlockNeverStops :
    let d := { bothStarted.dec with str := Memory.writeBytes [] 0 (hdr 1 1 4 0 ++ [0xC0]) }
    (bothStarted.withDec d).Inv ∧ (bothStarted.enc.phase = .busy ∧ bothStarted.enc.Loaded)
    ∧ d.phase = .busy ∧ d.Loaded := by
  refine ⟨⟨bothStarted_enc_inv, ?_⟩, ⟨rfl, bothStarted_enc_loaded⟩, rfl, ?_⟩
  · have h := bothStarted_dec_inv
    have hw := h.working rfl
    exact ⟨by decide, h.pix_wf, h.err_iff, h.err_of, fun _ => ⟨hw.channels_ok, hw.width_pos, hw.height_pos, hw.npix_eq,
      hw.pos_le, hw.pc_ge, hw.pc_le, hw.indexed, hw.written⟩, h.finished⟩
  · show ∀ a, a < 15 → (Memory.read (Memory.writeBytes [] 0 (hdr 1 1 4 0 ++ [0xC0])) a).isSome = true
    decide

/-- LoadedBlockNeverStops, one agent resting. -/
theorem witness_resting : State.reset.enc.Resting ∧ State.reset.dec.Resting := ⟨⟨by decide, rfl⟩, ⟨by decide, rfl⟩⟩

/-- DecoderAlwaysEnds. -/
theorem witness_DecoderAlwaysEnds :
    let s := State.reset.withDec { bothStarted.dec with str := Memory.writeBytes [] 0 (hdr 1 1 4 0 ++ [0xC0]) }
    s.Inv ∧ s.dec.phase = .busy ∧ s.dec.Loaded ∧ s.enc.Resting := by
  obtain ⟨h, -, h1, h2⟩ := witness_LoadedBlockNeverStops
  refine ⟨⟨?_, h.dec⟩, h1, h2, witness_resting.1⟩
  exact ⟨rfl, rfl, by decide, .inl rfl, fun h => absurd h (by decide), fun h => absurd h (by decide)⟩

end Sys2Proof.Tests
end

/-! ## 10_state.md: progress of a chunk, the two agents' independence, and the block's invariant -/

/-! ### A chunk makes progress -/

section
namespace Sys2Proof.Machine

/-- A well-formed chunk stands for at most 62 pixels (R89). -/
theorem chunkMeaning_le {i : Instr} (h : History) (hw : i.WellFormed = true) : (chunkMeaning i h).2.1 ≤ 62 := by
  cases i with
  | run frun =>
    have hf : frun.toNat ≤ 61 := of_decide_eq_true hw
    exact Nat.succ_le_succ hf
  | _ => simp [chunkMeaning]

/-- Settles O23: a chunk is a `chunkStep`, which either raises TruncatedInput or produces `chunkMeaning`'s 1 to 62
pixels, clamped to those that remain. -/
theorem chunkMakesProgress : Obligations.ChunkMakesProgress := by
  intro i s t hi hw h
  obtain ⟨f, hf, hprod⟩ := exec_chunk i hi
  obtain ⟨hb, hp, ⟨-, rfl⟩ | ⟨-, rfl⟩⟩ := chunkStep_cases (hf s ▸ h)
  · exact .inl ⟨rfl, rfl⟩
  · have hd := hprod s.dec hp
    have hpos := chunkMeaning_pos i s.dec.hist hi
    have hle := chunkMeaning_le s.dec.hist hw
    refine .inr ⟨hd.phase.trans hb, ?_⟩
    simp only [withDec_dec, hd.pos, hd.npix]
    omega

end Sys2Proof.Machine
end

/-! ### Neither agent sees the other -/

section
namespace Sys2Proof.Machine

/-- The encoder and the decoder are replaced independently. -/
theorem withEnc_withDec (s : State) (e : Enc) (d : Dec) : (s.withEnc e).withDec d = (s.withDec d).withEnc e := rfl

theorem onNext_ite (f : State → State) (c : Prop) [Decidable c] (o o' : Host.Outcome State Fault Refusal) :
    onNext f (if c then o else o') = if c then onNext f o else onNext f o' := apply_ite ..

section decoder
variable (s : State) (e : Enc)

theorem chunkStep_withEnc (n : Nat) (f : Dec → Dec) :
    chunkStep n f (s.withEnc e) = onNext (fun t => t.withEnc e) (chunkStep n f s) := by
  simp only [chunkStep, onNext_ite]
  rfl

theorem execHeader_withEnc (w h : BitVec 32) (c cs : Byte) :
    execHeader w h c cs (s.withEnc e) = onNext (fun t => t.withEnc e) (execHeader w h c cs s) := by
  simp only [execHeader, onNext_ite]
  rfl

theorem execEndMarker_withEnc :
    execEndMarker (s.withEnc e) = onNext (fun t => t.withEnc e) (execEndMarker s) := by
  simp only [execEndMarker, onNext_ite]
  rfl

/-- The meaning of an instruction does not depend on the encoder (R20). -/
theorem exec_withEnc (i : Instr) : exec i (s.withEnc e) = onNext (fun t => t.withEnc e) (exec i s) := by
  by_cases hi : i.place = .chunk
  · obtain ⟨f, hf, -⟩ := exec_chunk i hi
    rw [hf, hf, chunkStep_withEnc]
  · cases i with
    | header w h c cs => exact execHeader_withEnc s e w h c cs
    | endMarker => exact execEndMarker_withEnc s e
    | _ => exact absurd rfl hi

theorem runFetched_withEnc (f : Fetched) :
    runFetched f (s.withEnc e) = onNext (fun t => t.withEnc e) (runFetched f s) := by
  cases f with
  | instr i => exact exec_withEnc s e i
  | failed r => rfl
  | unwritten a => rfl

theorem decHostMove_withEnc : decHostMove (s.withEnc e) = onNext (fun t => t.withEnc e) (decHostMove s) := by
  simp only [decHostMove, withEnc_dec]
  split
  · rfl
  · rfl
  · rw [withEnc_withDec, runFetched_withEnc]

/-- A step of the decoder does not depend on the encoder (R20). -/
theorem decStep_withEnc : decStep (s.withEnc e) = onNext (fun t => t.withEnc e) (decStep s) := by
  by_cases hb : s.dec.phase = .busy
  · rw [decStep_busy hb, decStep_busy (show (s.withEnc e).dec.phase = .busy from hb), withEnc_dec, runFetched_withEnc]
  · rw [decStep_rest hb, decStep_rest (show (s.withEnc e).dec.phase ≠ .busy from hb), decHostMove_withEnc]

end decoder

section encoder
variable (s : State) (d : Dec)

theorem encStart_withDec (w h : BitVec 32) (c cs : Byte) (n : Nat) :
    encStart w h c cs n (s.withDec d) = onNext (fun t => t.withDec d) (encStart w h c cs n s) := by
  simp only [encStart, onNext_ite]
  cases encStartError w h c n <;> rfl

theorem encPixel_withDec : encPixel (s.withDec d) = onNext (fun t => t.withDec d) (encPixel s) := by
  simp only [encPixel, onNext_ite, withDec_enc]
  cases s.enc.pixRead s.enc.pos <;> rfl

theorem encFinish_withDec : encFinish (s.withDec d) = onNext (fun t => t.withDec d) (encFinish s) := by
  simp only [encFinish, onNext_ite]
  rfl

theorem encHostMove_withDec : encHostMove (s.withDec d) = onNext (fun t => t.withDec d) (encHostMove s) := by
  simp only [encHostMove, withDec_enc]
  split
  · rfl
  · rfl
  · rw [← withEnc_withDec, encStart_withDec]

/-- A step of the encoder does not depend on the decoder (R20). -/
theorem encStep_withDec : encStep (s.withDec d) = onNext (fun t => t.withDec d) (encStep s) := by
  by_cases hb : s.enc.phase = .busy
  · rw [encStep_busy hb, encStep_busy (show (s.withDec d).enc.phase = .busy from hb), withDec_enc]
    split
    · exact encPixel_withDec s d
    · exact encFinish_withDec s d
  · rw [encStep_rest hb, encStep_rest (show (s.withDec d).enc.phase ≠ .busy from hb), encHostMove_withDec]

end encoder

/-- Settles O38: each agent's step only replaces its own agent and commutes with replacing the other one, so the two
steps commute with each other. -/
theorem agentsDoNotInterfere : Obligations.AgentsDoNotInterfere := by
  have dec_free : ∀ {s t : State}, decStep s = .next t → ∀ e, decStep (s.withEnc e) = .next (t.withEnc e) :=
    fun h e => by rw [decStep_withEnc, h]; rfl
  have enc_free : ∀ {s t : State}, encStep s = .next t → ∀ d, encStep (s.withDec d) = .next (t.withDec d) :=
    fun h d => by rw [encStep_withDec, h]; rfl
  refine ⟨fun s t h => ⟨?_, dec_free h⟩, fun s t h => ⟨?_, enc_free h⟩, fun s t u ht hu => ?_⟩
  · obtain ⟨d', rfl, -⟩ := decStep_cases h
    rfl
  · obtain ⟨e', rfl, -⟩ := encStep_cases h
    rfl
  · obtain ⟨e', rfl, -⟩ := encStep_cases ht
    obtain ⟨d', rfl, -⟩ := decStep_cases hu
    exact ⟨(s.withDec d').withEnc e', dec_free hu e', enc_free ht d'⟩

end Sys2Proof.Machine
end

/-! ### The invariant at reset -/

section
namespace Sys2Proof.Machine

theorem enc_atReset_inv : Enc.atReset.Inv where
  pix_wf := wf_nil
  str_wf := wf_nil
  err_iff := by decide
  err_of := .inl rfl
  working := fun h => absurd h (by decide)
  finished := fun h => absurd h (by decide)

theorem dec_atReset_inv : Dec.atReset.Inv where
  str_wf := wf_nil
  pix_wf := wf_nil
  err_iff := by decide
  err_of := .inl rfl
  working := fun h => absurd h (by decide)
  finished := fun h => absurd h (by decide)

/-- Settles O41: both agents are IDLE with empty spaces. -/
theorem resetMeetsInvariant : Obligations.ResetMeetsInvariant := ⟨enc_atReset_inv, dec_atReset_inv⟩

end Sys2Proof.Machine
end

/-! ### Every step keeps the invariant -/

section
namespace Sys2Proof.Machine

/-- When exactly the addresses below `n` are written, writing `v` at `n` moves that bound past `v` (R53). -/
theorem written_writeBytes {m : Memory} {n : Nat} (v : List Byte)
    (h : ∀ a, (Memory.read m a).isSome = true ↔ a < n) (a : Nat) :
    (Memory.read (Memory.writeBytes m n v) a).isSome = true ↔ a < n + v.length := by
  rw [isSome_read_writeBytes, h]
  omega

/-! #### The encoder's operations -/

/-- `emit` keeps "every byte below `wp` has been written, and no other" (R28, R53). -/
theorem emit_written {e : Enc} (bs : List Byte) (h : ∀ a, (Memory.read e.str a).isSome = true ↔ a < e.wp) (a : Nat) :
    (Memory.read (e.emit bs).str a).isSome = true ↔ a < (e.emit bs).wp :=
  written_writeBytes bs h a

/-- The validation of ENC.START gives one of the encoder's own codes (R34, R131). -/
theorem encStartError_ofAgent (w h : BitVec 32) (c : Byte) (n : Nat) : (encStartError w h c n).ofAgent .enc := by
  simp only [encStartError, Err.ofAgent]
  split_ifs <;> simp

/-- What ENC.START has checked when it succeeds (R131). -/
theorem encStartError_none {w h : BitVec 32} {c : Byte} {n : Nat} (hr : encStartError w h c n = .none) :
    w ≠ 0 ∧ h ≠ 0 ∧ (c = 3 ∨ c = 4) ∧ n = w.toNat * h.toNat * c.toNat := by
  unfold encStartError at hr
  split_ifs at hr with hz hc hn
  obtain ⟨hw, hh⟩ := not_or.1 hz
  exact ⟨hw, hh, (validChannels_iff c).1 (Bool.of_not_eq_false hc), not_not.1 hn⟩

/-- A Pixel read from a 3-channel buffer is opaque (R54). -/
theorem pixRead_alpha {e : Enc} {i : Nat} {p : Pixel} (h : e.pixRead i = .ok p) (hc : e.channels = 3) : p.a = 255 := by
  unfold Enc.pixRead at h
  split at h
  · cases h
  · rename_i bytes hr
    injection h with h
    have hl : bytes.length = 3 := by
      rw [((readBytes_ok_iff _ _ _ _).1 hr).1, hc]
      rfl
    match bytes, hl with
    | [_, _, _], _ => rw [← h]; rfl

/-! #### The decision for one pixel (R134, R142) -/

section
variable (h : History) (run : Nat) (p : Pixel)

/-- The run counter after a pixel: longer by one, or zero again, and zero rather than 62 (R26, R135). -/
theorem pixelDecision_run :
    (pixelDecision h run p).2.2 = 0 ∨ (pixelDecision h run p).2.2 = run + 1 ∧ run + 1 ≠ 62 := by
  unfold pixelDecision
  split
  · split
    · exact .inl rfl
    · exact .inr ⟨rfl, ‹_›⟩
  · exact .inl rfl

/-- The History after a pixel: kept in a run, `prev` replaced on a cache hit, recorded otherwise. -/
theorem pixelDecision_hist :
    ((pixelDecision h run p).2.1 = h ∧ p = h.prev) ∨ (pixelDecision h run p).2.1 = h.setPrev p
      ∨ (pixelDecision h run p).2.1 = h.record p := by
  unfold pixelDecision pixelHistory
  split
  · split <;> exact .inl ⟨rfl, ‹_›⟩
  · split
    · exact .inr (.inl rfl)
    · exact .inr (.inr rfl)

/-- `prev` is the pixel just consumed. -/
theorem pixelDecision_prev : (pixelDecision h run p).2.1.prev = p := by
  rcases pixelDecision_hist h run p with ⟨e, hp⟩ | e | e <;> rw [e]
  · exact hp.symm
  · rfl
  · rfl

/-- R25's invariant survives every pixel. -/
theorem indexed_pixelDecision (hi : h.Indexed) : (pixelDecision h run p).2.1.Indexed := by
  rcases pixelDecision_hist h run p with ⟨e, -⟩ | e | e <;> rw [e]
  · exact hi
  · exact indexed_setPrev p hi
  · exact indexed_record p hi

end

/-! #### The encoder's steps -/

/-- An encoder that is not in ERROR has no error code (R34). -/
theorem Enc.Inv.err_none {e : Enc} (hi : e.Inv) (hp : e.phase ≠ .error) : e.err = .none :=
  not_not.1 fun h => hp (hi.err_iff.1 h)

/-- A raise of one of the encoder's own errors meets the invariant (R200, R34). -/
theorem enc_failed_inv {e : Enc} {r : Err} (hpix : Memory.wf e.pix = true) (hr : r.ofAgent .enc) (hn : r ≠ .none) :
    (e.failed r).Inv where
  pix_wf := hpix
  str_wf := free_wf _ _
  err_iff := iff_of_true hn rfl
  err_of := hr
  working := fun h => by cases h
  finished := fun h => by cases h

/-- A successful ENC.START sets the encoder to work (R132). -/
theorem enc_begin_working (e : Enc) {w h : BitVec 32} {c : Byte} (cs : Byte) {n : Nat}
    (hr : encStartError w h c n = .none) : (e.begin w h c cs n).Working := by
  obtain ⟨hw, hh, hc, hn⟩ := encStartError_none hr
  exact
    { channels_ok := hc
      width_pos := hw
      height_pos := hh
      npix_eq := rfl
      pixlen_eq := hn
      pos_le := Nat.zero_le _
      run_le := Nat.zero_le _
      run_le_pos := Nat.le_refl _
      indexed := indexed_start
      opaque_alpha := fun _ => rfl
      wp_ge := Nat.le_refl _
      written := emit_written _ fun a => by simp }

/-- ENC.PIXEL keeps a working encoder working (R133, R134). -/
theorem consume_working {e : Enc} {p : Pixel} (hw : e.Working) (hl : e.pos < e.npix)
    (hp : e.channels = 3 → p.a = 255) : (e.consume p).Working where
  channels_ok := hw.channels_ok
  width_pos := hw.width_pos
  height_pos := hw.height_pos
  npix_eq := hw.npix_eq
  pixlen_eq := hw.pixlen_eq
  pos_le := hl
  run_le := by
    have h := hw.run_le
    show (pixelDecision e.hist e.run p).2.2 ≤ 61
    rcases pixelDecision_run e.hist e.run p with hr | ⟨hr, hne⟩ <;> omega
  run_le_pos := by
    have h := hw.run_le_pos
    show (pixelDecision e.hist e.run p).2.2 ≤ e.pos + 1
    rcases pixelDecision_run e.hist e.run p with hr | ⟨hr, -⟩ <;> omega
  indexed := indexed_pixelDecision _ _ _ hw.indexed
  opaque_alpha := fun hc => by
    show (pixelDecision e.hist e.run p).2.1.prev.a = 255
    rw [pixelDecision_prev]
    exact hp hc
  wp_ge := Nat.le_add_right_of_le hw.wp_ge
  written := emit_written _ hw.written

/-- Everything the encoder does keeps its invariant. -/
theorem encDoes_keeps_inv {e e' : Enc} (hi : e.Inv) (h : EncDoes e e') : e'.Inv := by
  cases h with
  | wait => exact hi
  | load addr bytes rest hp hh =>
    exact
      { pix_wf := writeBytes_wf _ _ _ hi.pix_wf
        str_wf := hi.str_wf
        err_iff := hi.err_iff
        err_of := hi.err_of
        working := fun hb => absurd hb hp
        finished := hi.finished }
  | refuse w h c cs n rest r hp hh hr hn => exact enc_failed_inv hi.pix_wf (hr ▸ encStartError_ofAgent w h c n) hn
  | begin w h c cs n rest hp hh hr =>
    exact
      { pix_wf := hi.pix_wf
        str_wf := writeBytes_wf _ _ _ wf_nil
        err_iff := iff_of_false (fun hn => hn rfl) (fun hb => by cases hb)
        err_of := .inl rfl
        working := fun _ => enc_begin_working _ cs hr
        finished := fun hb => by cases hb }
  | pixel p hp hl hr =>
    exact
      { pix_wf := hi.pix_wf
        str_wf := writeBytes_wf _ _ _ hi.str_wf
        err_iff := hi.err_iff
        err_of := hi.err_of
        working := fun _ => consume_working (hi.working hp) hl (pixRead_alpha hr)
        finished := fun hd => absurd (hp.symm.trans hd) (by decide) }
  | finish hp hl =>
    have herr : e.err = .none := hi.err_none (by rw [hp]; decide)
    exact
      { pix_wf := hi.pix_wf
        str_wf := writeBytes_wf _ _ _ (writeBytes_wf _ _ _ hi.str_wf)
        err_iff := iff_of_false (fun hn => hn herr) (fun hb => by cases hb)
        err_of := .inl herr
        working := fun hb => by cases hb
        finished := fun _ a => (emit_written _ (emit_written _ (hi.working hp).written) a).2 }

/-! #### The decoder's steps -/

/-- A decoder that is not in ERROR has no error code (R34). -/
theorem Dec.Inv.err_none {d : Dec} (hi : d.Inv) (hp : d.phase ≠ .error) : d.err = .none :=
  not_not.1 fun h => hp (hi.err_iff.1 h)

/-- A raise of one of the decoder's two errors meets the invariant (R200, R34). -/
theorem dec_failed_inv {d : Dec} {r : Err} (hstr : Memory.wf d.str = true)
    (hr : r = .truncatedInput ∨ r = .invalidHeader) : (d.failed r).Inv where
  str_wf := hstr
  pix_wf := free_wf _ _
  err_iff := iff_of_true (show r ≠ .none by rcases hr with rfl | rfl <;> decide) rfl
  err_of := .inr hr.symm
  working := fun h => by cases h
  finished := fun h => by cases h

/-- A successful DEC.START sets the decoder to work (R163). -/
theorem dec_begin_working (d : Dec) {w h : BitVec 32} {c : Byte} (cs : Byte) (hn : 14 ≤ d.inlen) (hw : w ≠ 0)
    (hh : h ≠ 0) (hc : c = 3 ∨ c = 4) : (d.begin w h c cs).Working where
  channels_ok := hc
  width_pos := hw
  height_pos := hh
  npix_eq := rfl
  pos_le := Nat.zero_le _
  pc_ge := Nat.le_refl _
  pc_le := hn
  indexed := indexed_start
  written := fun a => by simp [Dec.begin]

/-- A chunk keeps a working decoder working, when its pixels fit the image and its bytes the stream, and the History it
leaves meets R25. -/
theorem produced_working {d d' : Dec} {h : History} {p : Pixel} {n size : Nat} (hd : Produced d d' h p n size)
    (hw : d.Working) (hh : h.Indexed) (hn : d.pos + n ≤ d.npix) (hs : d.pc + size ≤ d.inlen) : d'.Working where
  channels_ok := by rw [hd.channels]; exact hw.channels_ok
  width_pos := by rw [hd.width]; exact hw.width_pos
  height_pos := by rw [hd.height]; exact hw.height_pos
  npix_eq := by rw [hd.npix, hd.width, hd.height]; exact hw.npix_eq
  pos_le := by rw [hd.pos, hd.npix]; exact hn
  pc_ge := by rw [hd.pc]; exact Nat.le_add_right_of_le hw.pc_ge
  pc_le := by rw [hd.pc, hd.inlen]; exact hs
  indexed := by rw [hd.hist]; exact hh
  written := fun a => by
    rw [hd.pix, hd.pos, hd.channels, pixelSize_eq _ hw.channels_ok, written_writeBytes _ hw.written,
      flatten_replicate_length, pixelSize_eq _ hw.channels_ok, Nat.add_mul]

/-- Everything the decoder does keeps its invariant. -/
theorem decDoes_keeps_inv {d d' : Dec} (hi : d.Inv) (h : DecDoes d d') : d'.Inv := by
  cases h with
  | wait => exact hi
  | load addr bytes rest hp hh =>
    exact
      { str_wf := writeBytes_wf _ _ _ hi.str_wf
        pix_wf := hi.pix_wf
        err_iff := hi.err_iff
        err_of := hi.err_of
        working := fun hb => absurd hb hp
        finished := hi.finished }
  | refuse n rest r hp hh hr => exact dec_failed_inv hi.str_wf hr
  | begin n rest w h c cs hp hh hf hn hw ht hc =>
    exact
      { str_wf := hi.str_wf
        pix_wf := wf_nil
        err_iff := iff_of_false (fun hn => hn rfl) (fun hb => by cases hb)
        err_of := .inl rfl
        working := fun _ => dec_begin_working _ cs hn hw ht hc
        finished := fun hb => by cases hb }
  | fail hp => exact dec_failed_inv hi.str_wf (.inl rfl)
  | chunk i _ hp hc hl hs hf hd =>
    have hbusy : d'.phase = .busy := hd.phase.trans hp
    have hw := hi.working hp
    exact
      { str_wf := by rw [hd.str]; exact hi.str_wf
        pix_wf := by rw [hd.pix]; exact writeBytes_wf _ _ _ hi.pix_wf
        err_iff := by rw [hd.err, hd.phase]; exact hi.err_iff
        err_of := by rw [hd.err]; exact hi.err_of
        working := fun _ => produced_working hd hw (indexed_chunkMeaning i hw.indexed) (by omega) hs
        finished := fun hdone => absurd (hbusy.symm.trans hdone) (by decide) }
  | finish hp hl hs hf =>
    have herr : d.err = .none := hi.err_none (by rw [hp]; decide)
    exact
      { str_wf := hi.str_wf
        pix_wf := hi.pix_wf
        err_iff := iff_of_false (fun hn => hn herr) (fun hb => by cases hb)
        err_of := .inl herr
        working := fun hb => by cases hb
        finished := fun _ a ha => ((hi.working hp).written a).2 (hl ▸ ha) }

/-! #### The block -/

/-- Settles O42: a step waits or is something one agent does, which keeps that agent's invariant and leaves the other
agent as it is. -/
theorem stepKeepsInvariant : Obligations.StepKeepsInvariant := by
  intro s t hi h
  rcases step_cases h with ⟨-, rfl⟩ | ⟨-, e', he, rfl⟩ | ⟨-, d', hd, rfl⟩
  · exact hi
  · exact ⟨encDoes_keeps_inv hi.enc he, hi.dec⟩
  · exact ⟨hi.enc, decDoes_keeps_inv hi.dec hd⟩

end Sys2Proof.Machine
end

/-! ## 20_memory.md: pixel buffers, the frame of a chunk, the input spaces, and the length of a stream -/

/-! ### Pixel buffers -/

section
namespace Sys2Proof.Machine

/-- `PixRead` of written bytes (R54). -/
theorem pixRead_ok {e : Enc} {i : Nat} {bytes : List Byte}
    (h : Memory.readBytes e.pix (i * pixelSize e.channels) (pixelSize e.channels) = .ok bytes) :
    e.pixRead i = .ok (pixelOfBytes bytes) := by
  simp only [Enc.pixRead, h]

/-- Settles O15: `pixelSize`, `pixelOfBytes` and `pixelBytes` at the two channel counts. -/
theorem pixelBufferLayout : Obligations.PixelBufferLayout := by
  refine ⟨fun e i r g b hc h => ?_, fun e i r g b a hc h => ?_, fun d i p hc => ?_, fun d i p hc => ?_⟩
  · exact pixRead_ok (bytes := [r, g, b]) (by rw [hc]; exact h)
  · exact pixRead_ok (bytes := [r, g, b, a]) (by rw [hc]; exact h)
  · rw [Dec.pixWrite, hc]
    rfl
  · rw [Dec.pixWrite, hc]
    rfl

end Sys2Proof.Machine
end

/-! ### The frame of the one-pixel chunks -/

section
namespace Sys2Proof.Machine

/-- Every chunk but RUN stands for one pixel (R170 to R174). -/
theorem chunkMeaning_one {i : Instr} (h : History) (hi : i.place = .chunk) (hr : ∀ frun, i ≠ .run frun) :
    (chunkMeaning i h).2.1 = 1 := by
  cases i with
  | run frun => exact absurd rfl (hr frun)
  | header => cases hi
  | endMarker => cases hi
  | _ => rfl

/-- After every instruction `prev` is the Pixel it stands for. -/
theorem chunkMeaning_prev (i : Instr) (h : History) : (chunkMeaning i h).2.2.prev = (chunkMeaning i h).1 := by
  cases i <;> rfl

/-- An instruction writes no cache entry but the one at its Pixel's hash (R120). -/
theorem chunkMeaning_lookup (i : Instr) (h : History) {k : BitVec 6} (hk : k ≠ hash (chunkMeaning i h).1) :
    (chunkMeaning i h).2.2.lookup k = h.lookup k := by
  rcases chunkMeaning_hist i h with e | e | e <;> rw [e]
  · rfl
  · rw [record_lookup, update_lookup, if_neg hk]

/-- A chunk of one pixel, all inside the stream, that answers a next state has produced that pixel. -/
theorem exec_onePixel {i : Instr} {s t : State} (hi : i.place = .chunk) (hr : ∀ frun, i ≠ .run frun)
    (hl : s.dec.pc + i.size ≤ s.dec.inlen) (h : exec i s = .next t) :
    ∃ d', t = s.withDec d'
      ∧ Produced s.dec d' (chunkMeaning i s.dec.hist).2.2 (chunkMeaning i s.dec.hist).1 1 i.size := by
  obtain ⟨f, hf, hprod⟩ := exec_chunk i hi
  obtain ⟨-, hp, ⟨hshort, -⟩ | ⟨-, ht⟩⟩ := chunkStep_cases (hf s ▸ h)
  · omega
  · have hone : min 1 (s.dec.npix - s.dec.pos) = 1 := by omega
    have hd := hprod s.dec hp
    rw [chunkMeaning_one _ hi hr, hone] at hd
    exact ⟨_, ht, hd⟩

/-- Settles O22: the chunk produces one pixel, which is the new `prev`; its bytes are the one write to the output. -/
theorem onePixelChunkFrame : Obligations.OnePixelChunkFrame := by
  intro i s t hi hr hl h
  obtain ⟨d', rfl, hd⟩ := exec_onePixel hi hr hl h
  have hprev : d'.hist.prev = (chunkMeaning i s.dec.hist).1 := by rw [hd.hist, chunkMeaning_prev]
  have hpix : d'.pix = Memory.writeBytes s.dec.pix (s.dec.pos * pixelSize s.dec.channels)
      (pixelBytes s.dec.channels d'.hist.prev) := by rw [hd.pix, hprev]; simp
  refine ⟨rfl, rfl, ⟨hd.phase, hd.err, hd.width, hd.height, hd.channels, hd.colorspace, hd.npix, hd.inlen, hd.str,
    hd.host, hd.free⟩, hd.pos, hd.pc, fun k hk => ?_, fun k hk => ?_, fun a ha => ?_⟩
  · rw [withDec_dec, hprev] at hk
    rw [withDec_dec, hd.hist, chunkMeaning_lookup i _ hk]
  · rw [withDec_dec, hpix, read_writeBytes_inside _ _ _ _ (by rwa [pixelBytes_length])]
  · rw [withDec_dec, hpix, read_writeBytes_outside _ _ _ _ (by rwa [pixelBytes_length])]

end Sys2Proof.Machine
end

/-! ### The input spaces while BUSY -/

section
namespace Sys2Proof.Machine

/-- Nothing a BUSY encoder does writes its input space or takes a move of the host (R67). -/
theorem encDoes_busy_input {e e' : Enc} (h : EncDoes e e') (hb : e.phase = .busy) :
    e'.pix = e.pix ∧ e'.host = e.host := by
  cases h with
  | wait hp => exact absurd hb hp
  | load _ _ _ hp => exact absurd hb hp
  | refuse _ _ _ _ _ _ _ hp => exact absurd hb hp
  | begin _ _ _ _ _ _ hp => exact absurd hb hp
  | pixel => exact ⟨rfl, rfl⟩
  | finish => exact ⟨rfl, rfl⟩

/-- Nothing a BUSY decoder does writes its input space or takes a move of the host (R67). -/
theorem decDoes_busy_input {d d' : Dec} (h : DecDoes d d') (hb : d.phase = .busy) :
    d'.str = d.str ∧ d'.host = d.host := by
  cases h with
  | wait hp => exact absurd hb hp
  | load _ _ _ hp => exact absurd hb hp
  | refuse _ _ _ hp => exact absurd hb hp
  | begin _ _ _ _ _ _ hp => exact absurd hb hp
  | fail => exact ⟨rfl, rfl⟩
  | chunk _ _ _ _ _ _ _ hd => exact ⟨hd.str, hd.host⟩
  | finish => exact ⟨rfl, rfl⟩

/-- Settles O39: the agent that moves keeps its input and its moves while BUSY, and the other agent is not touched. -/
theorem inputsStayWhileBusy : Obligations.InputsStayWhileBusy := by
  intro s t h
  rcases step_cases h with ⟨-, rfl⟩ | ⟨-, e', he, rfl⟩ | ⟨-, d', hd, rfl⟩
  · exact ⟨fun _ => ⟨rfl, rfl⟩, fun _ => ⟨rfl, rfl⟩⟩
  · exact ⟨encDoes_busy_input he, fun _ => ⟨rfl, rfl⟩⟩
  · exact ⟨fun _ => ⟨rfl, rfl⟩, decDoes_busy_input hd⟩

end Sys2Proof.Machine
end

/-! ### A step with its input placed -/

section
namespace Sys2Proof.Machine

theorem mover_enabled {s : State} {a : Agent} (h : mover s = some a) : enabled a s = true := by
  unfold mover at h
  split at h
  · rename_i he
    injection h with h
    exact h ▸ he
  · split at h
    · rename_i he
      injection h with h
      exact h ▸ he
    · cases h

/-! #### The encoder -/

/-- `PixRead` of a missing pixel answers when the announced buffer is placed (R52, R232). -/
theorem pixRead_total {e : Enc} (hw : e.Working) (hld : e.Loaded) {i : Nat} (hi : i < e.npix) :
    ∃ p, e.pixRead i = .ok p := by
  have hbuf : i * pixelSize e.channels + pixelSize e.channels ≤ e.pixlen :=
    calc i * pixelSize e.channels + pixelSize e.channels
      _ = (i + 1) * pixelSize e.channels := (Nat.succ_mul _ _).symm
      _ ≤ e.npix * pixelSize e.channels := Nat.mul_le_mul_right _ hi
      _ = e.pixlen := by rw [hw.pixlen_eq, pixelSize_eq _ hw.channels_ok]
  obtain ⟨bytes, hb⟩ := readBytes_total e.pix (i * pixelSize e.channels) (pixelSize e.channels)
    fun k hk => hld _ (by omega)
  exact ⟨_, pixRead_ok hb⟩

/-- ENC.PIXEL, enabled, on a pixel whose bytes are placed (R133). -/
theorem encPixel_next {s : State} {p : Pixel} (hb : s.enc.phase = .busy) (hl : s.enc.pos < s.enc.npix)
    (hp : s.enc.pixRead s.enc.pos = .ok p) : encPixel s = .next (s.withEnc (s.enc.consume p)) := by
  rw [encPixel, if_pos ⟨hb, hl⟩, hp]

/-- A working encoder whose buffer is placed has a next state: PIXEL while pixels are left, then FINISH. -/
theorem encStep_total {s : State} (hb : s.enc.phase = .busy) (hw : s.enc.Working) (hld : s.enc.Loaded) :
    ∃ t, encStep s = .next t := by
  rw [encStep_busy hb]
  split
  · rename_i hl
    obtain ⟨p, hp⟩ := pixRead_total hw hld hl
    exact ⟨_, encPixel_next hb hl hp⟩
  · rename_i hl
    have heq : s.enc.pos = s.enc.npix := Nat.le_antisymm hw.pos_le (Nat.not_lt.1 hl)
    exact ⟨_, if_pos ⟨hb, heq⟩⟩

/-! #### The decoder -/

/-- A fetch inside a placed stream meets no unwritten byte (R52, R233). -/
theorem fetchAt_ne_unwritten {d : Dec} (hld : d.Loaded) {place : Place} {a n : Nat} (h : a + n ≤ d.inlen) (x : Nat) :
    fetchAt place d a n ≠ .unwritten x := by
  obtain ⟨bytes, hb⟩ := readBytes_total d.str a n fun k hk => hld _ (by omega)
  cases hd : decode place bytes with
  | ok r => rw [fetchAt_ok hb hd]; simp
  | error e => rw [fetchAt_error hb hd]; simp

theorem fetchChunk_ne_unwritten {d : Dec} (hld : d.Loaded) (x : Nat) : fetchChunk d ≠ .unwritten x := by
  unfold fetchChunk
  split
  · simp
  · rename_i hpc
    obtain ⟨t, ht⟩ := Option.isSome_iff_exists.1 (hld d.pc (by omega))
    rw [ht]
    dsimp only
    split
    · simp
    · exact fetchAt_ne_unwritten hld (by omega) x

theorem fetchEnd_ne_unwritten {d : Dec} (hld : d.Loaded) (x : Nat) : fetchEnd d ≠ .unwritten x := by
  unfold fetchEnd
  split
  · simp
  · exact fetchAt_ne_unwritten hld (by omega) x

theorem fetch_ne_unwritten {d : Dec} (hld : d.Loaded) (x : Nat) : fetch d ≠ .unwritten x := by
  unfold fetch
  split
  · exact fetchChunk_ne_unwritten hld x
  · exact fetchEnd_ne_unwritten hld x

/-- While pixels are missing every chunk has a next state (R164, R165). -/
theorem exec_chunk_total {i : Instr} {s : State} (hi : i.place = .chunk) (hb : s.dec.phase = .busy)
    (hp : s.dec.pos < s.dec.npix) : ∃ t, exec i s = .next t := by
  obtain ⟨f, hf, -⟩ := exec_chunk i hi
  rw [hf]
  by_cases hl : s.dec.pc + i.size ≤ s.dec.inlen
  · exact ⟨_, chunkStep_next _ f s hb hp hl⟩
  · exact ⟨_, chunkStep_short _ f s hb hp (by omega)⟩

/-- With every pixel produced the end marker has a next state (R177). -/
theorem exec_finish_total {i : Instr} {s : State} (hi : i.place = .finish) (hb : s.dec.phase = .busy)
    (hp : s.dec.pos = s.dec.npix) : ∃ t, exec i s = .next t := by
  cases i with
  | endMarker =>
    rw [exec_endMarker, execEndMarker, if_pos ⟨hb, hp⟩]
    split
    · exact ⟨_, rfl⟩
    · exact ⟨_, rfl⟩
  | _ => cases hi

/-- What a BUSY decoder fetches it can execute (R164). -/
theorem exec_fetched_total {i : Instr} {s : State} (hb : s.dec.phase = .busy) (hp : s.dec.pos ≤ s.dec.npix)
    (hf : fetch s.dec = .instr i) : ∃ t, exec i s = .next t := by
  have hi := fetch_place hf
  split at hi
  · rename_i hl
    exact exec_chunk_total hi hb hl
  · exact exec_finish_total hi hb (by omega)

/-- A working decoder whose stream is placed has a next state. -/
theorem decStep_total {s : State} (hb : s.dec.phase = .busy) (hw : s.dec.Working) (hld : s.dec.Loaded) :
    ∃ t, decStep s = .next t := by
  rw [decStep_busy hb]
  cases hf : fetch s.dec with
  | instr i => exact exec_fetched_total hb hw.pos_le hf
  | failed e => exact ⟨_, rfl⟩
  | unwritten a => exact absurd hf (fetch_ne_unwritten hld a)

/-- Settles O37: the agent that moves has a step enabled, so it is not resting but BUSY with its input placed. -/
theorem loadedBlockNeverStops : Obligations.LoadedBlockNeverStops := by
  intro s hi he hd
  cases hm : mover s with
  | none => exact ⟨s, by simp only [step, hm]⟩
  | some a =>
    have hen := mover_enabled hm
    have hstep : ∃ t, agentStep a s = .next t := by
      cases a with
      | enc =>
        obtain ⟨hb, hld⟩ | hrest := he
        · exact encStep_total hb (hi.enc.working hb) hld
        · exact absurd hen (by rw [enabled, encEnabled_resting hrest]; decide)
      | dec =>
        obtain ⟨hb, hld⟩ | hrest := hd
        · exact decStep_total hb (hi.dec.working hb) hld
        · exact absurd hen (by rw [enabled, decEnabled_resting hrest]; decide)
    obtain ⟨t, ht⟩ := hstep
    exact ⟨_, by rw [step_of_mover hm, ht]; rfl⟩

end Sys2Proof.Machine
end

/-! ### The length of a stream -/

section
namespace Sys2Proof.Machine

theorem encodeAll_append (is js : List Instr) : encodeAll (is ++ js) = encodeAll is ++ encodeAll js :=
  List.flatMap_append

@[simp] theorem encodeAll_singleton (i : Instr) : encodeAll [i] = encode i := List.flatMap_singleton encode i

/-- The buffer's Pixels, one for each of the `n`. -/
@[simp] theorem splitPixels_length (c : Byte) (n : Nat) (bytes : List Byte) : (splitPixels c n bytes).length = n := by
  induction n generalizing bytes with
  | zero => rfl
  | succ n ih => rw [splitPixels, List.length_cons, ih]

/-- Fewer than four bytes give no alpha of their own (R54). -/
theorem pixelOfBytes_opaque {bytes : List Byte} (h : bytes.length ≤ 3) : (pixelOfBytes bytes).a = 255 := by
  unfold pixelOfBytes
  split
  · simp at h
  · rfl
  · rfl

/-- Every Pixel of a 3-channel buffer is opaque (R54). -/
theorem splitPixels_opaque (n : Nat) (bytes : List Byte) : ∀ p ∈ splitPixels 3 n bytes, p.a = 255 := by
  induction n generalizing bytes with
  | zero => simp [splitPixels]
  | succ n ih =>
    rw [splitPixels, List.forall_mem_cons]
    exact ⟨pixelOfBytes_opaque (List.length_take_le _ _), ih _⟩

/-! #### One pixel -/

/-- A flush takes one byte when a run is pending, and none otherwise (R136). -/
theorem flushRun_length (run : Nat) : (encodeAll (flushRun run)).length = if 0 < run then 1 else 0 := by
  unfold flushRun
  split <;> rfl

/-- A pixel's own chunk has 1 to 5 bytes (R81, R134). -/
theorem pixelChunk_size (h : History) (p : Pixel) : 1 ≤ (pixelChunk h p).size ∧ (pixelChunk h p).size ≤ 5 := by
  unfold pixelChunk
  dsimp only
  split_ifs <;> simp [Instr.size]

/-- With `prev`'s alpha it is no RGBA and has at most 4 (R134, R141). -/
theorem pixelChunk_size_alphaSame {h : History} {p : Pixel} (ha : p.a = h.prev.a) : (pixelChunk h p).size ≤ 4 := by
  have hs : alphaSame p h.prev = true := decide_eq_true ha
  unfold pixelChunk
  dsimp only
  rw [if_pos hs]
  split_ifs <;> simp [Instr.size]

/-- The three ways a pixel goes: it completes a run of 62, it prolongs the pending run, or it flushes the pending run
and takes a chunk of its own (R134 to R136). -/
theorem pixelDecision_cases (h : History) (run : Nat) (p : Pixel) :
    (run + 1 = 62 ∧ (encodeAll (pixelDecision h run p).1).length = 1 ∧ (pixelDecision h run p).2.2 = 0)
    ∨ ((encodeAll (pixelDecision h run p).1).length = 0 ∧ (pixelDecision h run p).2.2 = run + 1)
    ∨ ((encodeAll (pixelDecision h run p).1).length = (encodeAll (flushRun run)).length + (pixelChunk h p).size
        ∧ (pixelDecision h run p).2.2 = 0) := by
  unfold pixelDecision
  split
  · split
    · exact .inl ⟨‹_›, rfl, rfl⟩
    · exact .inr (.inl ⟨rfl, rfl⟩)
  · exact .inr (.inr ⟨by rw [encodeAll_append, encodeAll_singleton, List.length_append, encode_length], rfl⟩)

/-- The bytes a pixel emits account for at most 62 pixels each, the pending run's among them (R62, R135). -/
theorem pixelDecision_length_ge (h : History) (run : Nat) (p : Pixel) (hr : run ≤ 61) :
    run + 1 ≤ 62 * (encodeAll (pixelDecision h run p).1).length + (pixelDecision h run p).2.2 := by
  have hsize := (pixelChunk_size h p).1
  have hflush := flushRun_length run
  rcases pixelDecision_cases h run p with ⟨hfull, hlen, hrun⟩ | ⟨hlen, hrun⟩ | ⟨hlen, hrun⟩ <;> rw [hlen, hrun]
  · omega
  · omega
  · split at hflush <;> omega

/-- A pixel whose own chunk takes at most `m` bytes lengthens the stream, with the flush of the pending run counted
before and after, by at most `m` (R62). -/
theorem pixelDecision_length_le {m : Nat} (h : History) (run : Nat) (p : Pixel) (hm : 1 ≤ m)
    (hsize : (pixelChunk h p).size ≤ m) :
    (encodeAll (pixelDecision h run p).1).length + (encodeAll (flushRun (pixelDecision h run p).2.2)).length
      ≤ m + (encodeAll (flushRun run)).length := by
  rcases pixelDecision_cases h run p with ⟨-, hlen, hrun⟩ | ⟨hlen, hrun⟩ | ⟨hlen, hrun⟩ <;> rw [hlen, hrun]
  · rw [flushRun_length 0, if_neg (Nat.lt_irrefl 0)]
    omega
  · rw [flushRun_length (run + 1), if_pos (Nat.succ_pos run)]
    omega
  · rw [flushRun_length 0, if_neg (Nat.lt_irrefl 0)]
    omega

/-! #### The chunk loop -/

theorem encodeLoop_cons_length (h : History) (run : Nat) (p : Pixel) (ps : List Pixel) :
    (encodeAll (encodeLoop h run (p :: ps))).length = (encodeAll (pixelDecision h run p).1).length
      + (encodeAll (encodeLoop (pixelDecision h run p).2.1 (pixelDecision h run p).2.2 ps)).length := by
  rw [encodeLoop, encodeAll_append, List.length_append]

/-- A byte of the chunk stream accounts for at most 62 pixels (R62). -/
theorem encodeLoop_length_ge (h : History) (run : Nat) (ps : List Pixel) (hr : run ≤ 61) :
    run + ps.length ≤ 62 * (encodeAll (encodeLoop h run ps)).length := by
  induction ps generalizing h run with
  | nil =>
    rw [encodeLoop, flushRun_length, List.length_nil]
    split <;> omega
  | cons p ps ih =>
    have hpixel := pixelDecision_length_ge h run p hr
    have hrun : (pixelDecision h run p).2.2 ≤ 61 := by
      rcases pixelDecision_run h run p with h0 | ⟨h1, hne⟩ <;> omega
    have hrest := ih (pixelDecision h run p).2.1 _ hrun
    rw [encodeLoop_cons_length, List.length_cons]
    omega

/-- When a pixel's own chunk takes at most `m` bytes wherever `prev` and the pixel are of a kind `good`, the chunk
stream of pixels of that kind takes at most `m` bytes for each, and the flush of the pending run (R62). -/
theorem encodeLoop_length_le {m : Nat} (good : Pixel → Prop) (hm : 1 ≤ m)
    (hsize : ∀ (h : History) (p : Pixel), good h.prev → good p → (pixelChunk h p).size ≤ m)
    (h : History) (run : Nat) (ps : List Pixel) (hprev : good h.prev) (hps : ∀ p ∈ ps, good p) :
    (encodeAll (encodeLoop h run ps)).length ≤ m * ps.length + (encodeAll (flushRun run)).length := by
  induction ps generalizing h run with
  | nil => exact Nat.le_add_left _ _
  | cons p ps ih =>
    obtain ⟨hp, hps⟩ := List.forall_mem_cons.1 hps
    have hpixel := pixelDecision_length_le h run p hm (hsize h p hprev hp)
    have hrest := ih (pixelDecision h run p).2.1 (pixelDecision h run p).2.2 (by rwa [pixelDecision_prev]) hps
    rw [encodeLoop_cons_length, List.length_cons, Nat.mul_succ]
    omega

/-! #### The whole stream -/

/-- What the encoder function has checked and what it answers (R144). -/
theorem encodeImage_ok {pix out : List Byte} {w h : BitVec 32} {c cs : Byte} (ho : encodeImage pix w h c cs = .ok out) :
    encStartError w h c pix.length = .none
    ∧ out = encode (.header w h c cs)
        ++ encodeAll (encodeLoop History.start 0 (splitPixels c (w.toNat * h.toNat) pix)) ++ encode .endMarker := by
  unfold encodeImage at ho
  split at ho
  · rename_i hr
    injection ho with ho
    exact ⟨hr, ho.symm⟩
  · cases ho

/-- A stream is the header's 14 bytes, the chunks, and the marker's 8 (R80, R144). -/
theorem encodeImage_length {pix out : List Byte} {w h : BitVec 32} {c cs : Byte}
    (ho : encodeImage pix w h c cs = .ok out) :
    out.length
      = 14 + (encodeAll (encodeLoop History.start 0 (splitPixels c (w.toNat * h.toNat) pix))).length + 8 := by
  rw [(encodeImage_ok ho).2]
  simp only [List.length_append, encode_length, Instr.size]

/-- Settles O52: a byte of the chunk region accounts for at most 62 pixels; a pixel takes at most one chunk of its own,
of at most 5 bytes, or 4 when no alpha changes, as with 3 channels. -/
theorem streamLengthBounds : Obligations.StreamLengthBounds := by
  intro pix w h c cs out ho
  rw [encodeImage_length ho]
  refine ⟨?_, fun _ => ?_, fun hc => ?_⟩
  · have hge := encodeLoop_length_ge History.start 0 (splitPixels c (w.toNat * h.toNat) pix) (Nat.zero_le _)
    rw [splitPixels_length] at hge
    omega
  · have hle := encodeLoop_length_le (fun _ => True) (by decide) (fun h p _ _ => (pixelChunk_size h p).2)
      History.start 0 (splitPixels c (w.toNat * h.toNat) pix) trivial (fun _ _ => trivial)
    rw [splitPixels_length, flushRun_length] at hle
    simpa using hle
  · subst hc
    have hle := encodeLoop_length_le (fun p => p.a = 255) (by decide)
      (fun h p hprev hp => pixelChunk_size_alphaSame (hp.trans hprev.symm))
      History.start 0 (splitPixels 3 (w.toNat * h.toNat) pix) rfl (splitPixels_opaque _ _)
    rw [splitPixels_length, flushRun_length] at hle
    simpa using hle

end Sys2Proof.Machine
end

/-! ## 30_encoding.md: from bytes to instructions and back -/

/-! ### Bytes made of fields -/

section
namespace Sys2Proof

/-- Fields side by side as a number: the high one is worth `2 ^ n` of the low one. -/
theorem toNat_append_eq_add {m n : Nat} (x : BitVec m) (y : BitVec n) :
    (x ++ y).toNat = x.toNat * 2 ^ n + y.toNat := by
  rw [BitVec.toNat_append, ← Nat.shiftLeft_add_eq_or_of_lt y.isLt, Nat.shiftLeft_eq]

@[simp] theorem tag2_append (c : BitVec 2) (k : BitVec 6) : tag2 (c ++ k) = c := BitVec.extractLsb'_append_eq_left

@[simp] theorem low6_append (c : BitVec 2) (k : BitVec 6) : low6 (c ++ k) = k := BitVec.extractLsb'_append_eq_right

theorem tag2_append_low6 (t : Byte) : tag2 t ++ low6 t = t := BitVec.extractLsb'_append_extractLsb' (w := 2) (len := 6)

/-- A byte is its tag and its payload, as numbers. -/
theorem toNat_eq_tag2_low6 (t : Byte) : t.toNat = (tag2 t).toNat * 64 + (low6 t).toNat := by
  conv_lhs => rw [← tag2_append_low6 t]
  exact toNat_append_eq_add _ _

/-- The four bytes of a size, read back (R56). -/
theorem ube32_be32 (v : BitVec 32) :
    ube32 (v.extractLsb' 24 8) (v.extractLsb' 16 8) (v.extractLsb' 8 8) (v.extractLsb' 0 8) = v := by
  apply BitVec.eq_of_toNat_eq
  simp only [ube32, toNat_append_eq_add, BitVec.extractLsb'_toNat, Nat.shiftRight_eq_div_pow]
  have := v.isLt
  omega

/-- The number four bytes stand for, most significant first (R56). -/
theorem ube32_toNat (b0 b1 b2 b3 : Byte) :
    (ube32 b0 b1 b2 b3).toNat = b0.toNat * 2 ^ 24 + b1.toNat * 2 ^ 16 + b2.toNat * 2 ^ 8 + b3.toNat := by
  simp only [ube32, toNat_append_eq_add]
  omega

/-- The four bytes of a size as numbers, most significant first (R56). -/
theorem be32_map_toNat (v : BitVec 32) :
    (be32 v).map BitVec.toNat = [v.toNat / 2 ^ 24, v.toNat / 2 ^ 16 % 256, v.toNat / 2 ^ 8 % 256, v.toNat % 256] := by
  have := v.isLt
  simp only [be32, List.map_cons, List.map_nil, BitVec.extractLsb'_toNat, Nat.shiftRight_eq_div_pow, List.cons.injEq,
    and_true, true_and]
  omega

/-- The bytes of the number four bytes stand for are those bytes (R56). -/
theorem be32_ube32 (b0 b1 b2 b3 : Byte) : be32 (ube32 b0 b1 b2 b3) = [b0, b1, b2, b3] := by
  apply List.map_injective_iff.2 (fun _ _ => BitVec.eq_of_toNat_eq)
  rw [be32_map_toNat, ube32_toNat]
  have := b0.isLt; have := b1.isLt; have := b2.isLt; have := b3.isLt
  simp only [List.map_cons, List.map_nil, List.cons.injEq, and_true]
  omega

/-- DIFF's three fields are one payload behind the tag. -/
theorem append_fields (c fr fg fb : BitVec 2) :
    (c ++ fr ++ fg ++ fb : Byte) = c ++ (fr ++ fg ++ fb : BitVec 6) := by
  apply BitVec.eq_of_toNat_eq
  simp only [toNat_append_eq_add]
  omega

/-- A payload is three fields of DIFF. -/
theorem eq_fields (k : BitVec 6) : ∃ fr fg fb : BitVec 2, k = fr ++ fg ++ fb := by
  refine ⟨k.extractLsb' 4 2, k.extractLsb' 2 2, k.extractLsb' 0 2, BitVec.eq_of_toNat_eq ?_⟩
  simp only [toNat_append_eq_add, BitVec.extractLsb'_toNat, Nat.shiftRight_eq_div_pow]
  omega

/-- A second byte of LUMA is two nibbles. -/
theorem eq_nibbles (u : Byte) : ∃ frg fbg : BitVec 4, u = frg ++ fbg :=
  ⟨_, _, (BitVec.extractLsb'_append_extractLsb' (w := 4) (len := 4)).symm⟩

/-- DIFF's fields where the decoder reads them (R81). -/
theorem extract_fields (c fr fg fb : BitVec 2) :
    (c ++ fr ++ fg ++ fb : Byte).extractLsb' 4 2 = fr ∧ (c ++ fr ++ fg ++ fb : Byte).extractLsb' 2 2 = fg
      ∧ (c ++ fr ++ fg ++ fb : Byte).extractLsb' 0 2 = fb := by
  refine ⟨?_, ?_, BitVec.extractLsb'_append_eq_right⟩ <;>
  · apply BitVec.eq_of_toNat_eq
    simp only [BitVec.extractLsb'_toNat, Nat.shiftRight_eq_div_pow, toNat_append_eq_add]
    omega

/-- Only the first bytes 0xFE and 0xFF have the tag `11` and a payload above 61 (R84). -/
theorem ne_literalTags_iff (c : BitVec 2) (k : BitVec 6) :
    ((c ++ k : Byte) ≠ 0xFE ∧ (c ++ k : Byte) ≠ 0xFF) ↔ c ≠ 0b11 ∨ k.toNat ≤ 61 := by
  have hk := k.isLt
  simp only [ne_eq, ← BitVec.toNat_inj, toNat_append_eq_add, BitVec.reduceToNat]
  omega

end Sys2Proof
end

/-! ### The kinds of first bytes, and one equation per kind of chunk -/

section
namespace Sys2Proof

/-- What the first byte of a chunk can be (R84, R85). -/
inductive FirstByte : Byte → Prop where
  | rgb : FirstByte 0xFE
  | rgba : FirstByte 0xFF
  | index (k : BitVec 6) : FirstByte (0b00#2 ++ k)
  | diff (fr fg fb : BitVec 2) : FirstByte (0b01#2 ++ fr ++ fg ++ fb)
  | luma (fgm : BitVec 6) : FirstByte (0b10#2 ++ fgm)
  | run (frun : BitVec 6) (h : frun.toNat ≤ 61) : FirstByte (0b11#2 ++ frun)

/-- Every byte is the first byte of one kind of chunk: the 8-bit tags apart, the 2-bit tag decides (R84). -/
theorem firstByte (t : Byte) : FirstByte t := by
  by_cases hrgb : t = 0xFE
  · exact hrgb ▸ .rgb
  by_cases hrgba : t = 0xFF
  · exact hrgba ▸ .rgba
  have htags : ∀ c : BitVec 2, c = 0b00#2 ∨ c = 0b01#2 ∨ c = 0b10#2 ∨ c = 0b11#2 := by decide
  rw [← tag2_append_low6 t] at hrgb hrgba ⊢
  generalize tag2 t = c at hrgb hrgba ⊢
  generalize low6 t = k at hrgb hrgba ⊢
  obtain rfl | rfl | rfl | rfl := htags c
  · exact .index k
  · obtain ⟨fr, fg, fb, rfl⟩ := eq_fields k
    exact append_fields _ _ _ _ ▸ .diff fr fg fb
  · exact .luma k
  · exact .run k (((ne_literalTags_iff _ _).1 ⟨hrgb, hrgba⟩).resolve_left (by decide))

/-- The size of a chunk whose first byte is no literal tag (R84). -/
theorem chunkSize_append {c : BitVec 2} {k : BitVec 6} (h : c ≠ 0b11 ∨ k.toNat ≤ 61) :
    chunkSize (c ++ k) = if c = 0b10#2 then 2 else 1 := by
  obtain ⟨hrgb, hrgba⟩ := (ne_literalTags_iff c k).2 h
  rw [chunkSize, if_neg hrgb, if_neg hrgba, tag2_append]
  rfl

variable (rest : List Byte)

theorem decodeChunk_rgb (r g b : Byte) : decodeChunk (0xFE :: r :: g :: b :: rest) = .ok (.rgb r g b, rest) := rfl

theorem decodeChunk_rgba (r g b a : Byte) :
    decodeChunk (0xFF :: r :: g :: b :: a :: rest) = .ok (.rgba r g b a, rest) := rfl

theorem decodeChunk_index (k : BitVec 6) : decodeChunk ((0b00#2 ++ k) :: rest) = .ok (.index k, rest) := by
  obtain ⟨hrgb, hrgba⟩ := (ne_literalTags_iff 0b00#2 k).2 (.inl (by decide))
  simp only [decodeChunk, if_neg hrgb, if_neg hrgba, tag2_append, low6_append]
  rfl

theorem decodeChunk_diff (fr fg fb : BitVec 2) :
    decodeChunk ((0b01#2 ++ fr ++ fg ++ fb) :: rest) = .ok (.diff fr fg fb, rest) := by
  have htag : tag2 (0b01#2 ++ fr ++ fg ++ fb) = 0b01#2 := by rw [append_fields]; exact tag2_append _ _
  obtain ⟨hrgb, hrgba⟩ := (ne_literalTags_iff 0b01#2 (fr ++ fg ++ fb)).2 (.inl (by decide))
  rw [← append_fields] at hrgb hrgba
  obtain ⟨hr, hg, hb⟩ := extract_fields 0b01#2 fr fg fb
  simp only [decodeChunk, if_neg hrgb, if_neg hrgba, htag, hr, hg, hb]
  rfl

theorem decodeChunk_luma (fgm : BitVec 6) (frg fbg : BitVec 4) :
    decodeChunk ((0b10#2 ++ fgm) :: (frg ++ fbg) :: rest) = .ok (.luma fgm frg fbg, rest) := by
  obtain ⟨hrgb, hrgba⟩ := (ne_literalTags_iff 0b10#2 fgm).2 (.inl (by decide))
  simp only [decodeChunk, if_neg hrgb, if_neg hrgba, tag2_append, low6_append, BitVec.extractLsb'_append_eq_left,
    BitVec.extractLsb'_append_eq_right]
  rfl

/-- A LUMA without its second byte is cut short (R165). -/
theorem decodeChunk_luma_short (fgm : BitVec 6) : decodeChunk [0b10#2 ++ fgm] = .error .truncated := by
  obtain ⟨hrgb, hrgba⟩ := (ne_literalTags_iff 0b10#2 fgm).2 (.inl (by decide))
  simp only [decodeChunk, if_neg hrgb, if_neg hrgba, tag2_append]
  rfl

theorem decodeChunk_run {frun : BitVec 6} (hw : frun.toNat ≤ 61) :
    decodeChunk ((0b11#2 ++ frun) :: rest) = .ok (.run frun, rest) := by
  obtain ⟨hrgb, hrgba⟩ := (ne_literalTags_iff 0b11#2 frun).2 (.inr hw)
  simp only [decodeChunk, if_neg hrgb, if_neg hrgba, tag2_append, low6_append]
  rfl

theorem decodeHeader_encode (w h : BitVec 32) (c cs : Byte) :
    decodeHeader (encode (.header w h c cs) ++ rest) = .ok (.header w h c cs, rest) := by
  have e : decodeHeader (encode (.header w h c cs) ++ rest) = .ok (.header
      (ube32 (w.extractLsb' 24 8) (w.extractLsb' 16 8) (w.extractLsb' 8 8) (w.extractLsb' 0 8))
      (ube32 (h.extractLsb' 24 8) (h.extractLsb' 16 8) (h.extractLsb' 8 8) (h.extractLsb' 0 8)) c cs, rest) := rfl
  rw [e, ube32_be32, ube32_be32]

end Sys2Proof
end

/-! ### Decoding inverts encoding, and encoding inverts decoding -/

section
namespace Sys2Proof

/-- Settles O2: one equation above for each constructor; a RUN's well-formedness keeps it off the literal tags. -/
theorem encodeThenDecode : Obligations.EncodeThenDecode := by
  intro i rest hw
  cases i with
  | rgb r g b => exact decodeChunk_rgb rest r g b
  | rgba r g b a => exact decodeChunk_rgba rest r g b a
  | index k => exact decodeChunk_index rest k
  | diff fr fg fb => exact decodeChunk_diff rest fr fg fb
  | luma fgm frg fbg => exact decodeChunk_luma rest fgm frg fbg
  | run frun => exact decodeChunk_run rest (of_decide_eq_true hw)
  | header w h c cs => exact decodeHeader_encode rest w h c cs
  | endMarker => rfl

/-- A chunk that decodes is well-formed, and its encoding is what was read (R84, R85). -/
theorem decodeChunk_ok {bytes rest : List Byte} {i : Instr} (h : decodeChunk bytes = .ok (i, rest)) :
    i.WellFormed = true ∧ bytes = encode i ++ rest := by
  cases bytes with
  | nil => cases h
  | cons t tail =>
    cases firstByte t with
    | rgb =>
      match tail, h with
      | r :: g :: b :: _, h => cases h; exact ⟨rfl, rfl⟩
    | rgba =>
      match tail, h with
      | r :: g :: b :: a :: _, h => cases h; exact ⟨rfl, rfl⟩
    | index k =>
      rw [decodeChunk_index] at h
      cases h
      exact ⟨rfl, rfl⟩
    | diff fr fg fb =>
      rw [decodeChunk_diff] at h
      cases h
      exact ⟨rfl, rfl⟩
    | luma fgm =>
      cases tail with
      | nil =>
        rw [decodeChunk_luma_short] at h
        cases h
      | cons u tail =>
        obtain ⟨frg, fbg, rfl⟩ := eq_nibbles u
        rw [decodeChunk_luma] at h
        cases h
        exact ⟨rfl, rfl⟩
    | run frun hw =>
      rw [decodeChunk_run tail hw] at h
      cases h
      exact ⟨decide_eq_true hw, rfl⟩

/-- A header that decodes is the encoding of what was read (R82). -/
theorem decodeHeader_ok {bytes rest : List Byte} {i : Instr} (h : decodeHeader bytes = .ok (i, rest)) :
    i.WellFormed = true ∧ bytes = encode i ++ rest := by
  unfold decodeHeader at h
  split at h
  · rename_i m0 m1 m2 m3 w0 w1 w2 w3 h0 h1 h2 h3 c cs tail
    split at h
    · rename_i hm
      cases h
      refine ⟨rfl, ?_⟩
      rw [encode, be32_ube32, be32_ube32, ← hm]
      rfl
    · cases h
  · cases h

/-- An end marker that decodes is the marker (R83). -/
theorem decodeEnd_ok {bytes rest : List Byte} {i : Instr} (h : decodeEnd bytes = .ok (i, rest)) :
    i.WellFormed = true ∧ bytes = encode i ++ rest := by
  unfold decodeEnd at h
  split at h
  · split at h
    · rename_i hm
      cases h
      refine ⟨rfl, ?_⟩
      rw [encode, ← hm]
      rfl
    · cases h
  · cases h

/-- Settles O3: each place has its decoder, and each decoder reads encodings only. -/
theorem decodeThenEncode : Obligations.DecodeThenEncode := by
  intro place bytes i rest h
  obtain ⟨hw, hbytes⟩ : i.WellFormed = true ∧ bytes = encode i ++ rest := by
    cases place with
    | start => exact decodeHeader_ok h
    | chunk => exact decodeChunk_ok h
    | finish => exact decodeEnd_ok h
  exact ⟨hw, Machine.decode_place h, hbytes⟩

end Sys2Proof
end

/-! ### The first byte gives the kind and the size -/

section
namespace Sys2Proof

/-- The first byte of a chunk's encoding gives the chunk's size (R84). -/
theorem chunkSize_of_encode {t : Byte} {i : Instr} {tail rest : List Byte} (hp : i.place = .chunk)
    (hw : i.WellFormed = true) (h : t :: tail = encode i ++ rest) : chunkSize t = i.size := by
  cases i with
  | rgb r g b => rw [(List.cons.inj h).1]; rfl
  | rgba r g b a => rw [(List.cons.inj h).1]; rfl
  | index k => rw [(List.cons.inj h).1, chunkSize_append (.inl (by decide))]; rfl
  | diff fr fg fb => rw [(List.cons.inj h).1, append_fields, chunkSize_append (.inl (by decide))]; rfl
  | luma fgm frg fbg => rw [(List.cons.inj h).1, chunkSize_append (.inl (by decide))]; rfl
  | run frun => rw [(List.cons.inj h).1, chunkSize_append (.inr (of_decide_eq_true hw))]; rfl
  | header w h c cs => cases hp
  | endMarker => cases hp

/-- A chunk that decodes has the size its first byte gives, and all its bytes are there (R84, R165). -/
theorem size_of_decodeChunk_ok {t : Byte} {tail rest : List Byte} {i : Instr}
    (h : decodeChunk (t :: tail) = .ok (i, rest)) : i.size = chunkSize t ∧ chunkSize t ≤ (t :: tail).length := by
  obtain ⟨hw, hbytes⟩ := decodeChunk_ok h
  have hplace : i.place = .chunk := Machine.decode_place (show decode .chunk (t :: tail) = .ok (i, rest) from h)
  have hsize := chunkSize_of_encode hplace hw hbytes
  refine ⟨hsize.symm, ?_⟩
  rw [hbytes, List.length_append, Machine.encode_length, hsize]
  exact Nat.le_add_right _ _

/-- A chunk whose bytes are all there decodes, whatever its first byte (R85). -/
theorem decodeChunk_total {t : Byte} {tail : List Byte} (h : chunkSize t ≤ (t :: tail).length) :
    ∃ i rest, decodeChunk (t :: tail) = .ok (i, rest) := by
  cases firstByte t with
  | rgb =>
    replace h : 4 ≤ (0xFE#8 :: tail).length := h
    match tail, h with
    | r :: g :: b :: tail, _ => exact ⟨_, _, decodeChunk_rgb tail r g b⟩
  | rgba =>
    replace h : 5 ≤ (0xFF#8 :: tail).length := h
    match tail, h with
    | r :: g :: b :: a :: tail, _ => exact ⟨_, _, decodeChunk_rgba tail r g b a⟩
  | index k => exact ⟨_, _, decodeChunk_index tail k⟩
  | diff fr fg fb => exact ⟨_, _, decodeChunk_diff tail fr fg fb⟩
  | luma fgm =>
    rw [chunkSize_append (.inl (by decide)), if_pos rfl] at h
    match tail, h with
    | u :: tail, _ =>
      obtain ⟨frg, fbg, rfl⟩ := eq_nibbles u
      exact ⟨_, _, decodeChunk_luma tail fgm frg fbg⟩
  | run frun hw => exact ⟨_, _, decodeChunk_run tail hw⟩

/-- The bytes of one of the four ranges of 64 are those with its tag. -/
theorem exists_append_of_div {t : Byte} (c : BitVec 2) (h : t.toNat / 64 = c.toNat) :
    ∃ k : BitVec 6, t = c ++ k ∧ t.toNat = c.toNat * 64 + k.toNat := by
  have hn := toNat_eq_tag2_low6 t
  have hl := (low6 t).isLt
  have hc : tag2 t = c := BitVec.eq_of_toNat_eq (by omega)
  exact ⟨low6 t, by rw [← hc, tag2_append_low6], by rw [← hc, hn]⟩

/-- Settles O4: a range of R85 is a 2-bit tag, the payload is the rest of the byte, and the chunk's equation does the
rest; the size comes from the bytes that decoding reads. -/
theorem firstByteSelectsKind : Obligations.FirstByteSelectsKind := by
  intro t rest
  refine ⟨fun h => ?_, fun h => ?_, fun h u => ?_, fun h => ?_, ?_, ?_,
    ⟨decodeChunk_total, fun ⟨i, rest', h⟩ => (size_of_decodeChunk_ok h).2⟩,
    fun i rest' h => (size_of_decodeChunk_ok h).1⟩
  · obtain ⟨k, rfl, hn⟩ := exists_append_of_div 0b00#2 (show t.toNat / 64 = 0 by omega)
    exact ⟨k, by omega, decodeChunk_index rest k⟩
  · obtain ⟨k, rfl, hn⟩ := exists_append_of_div 0b01#2 (show t.toNat / 64 = 1 by omega)
    obtain ⟨fr, fg, fb, rfl⟩ := eq_fields k
    rw [toNat_append_eq_add (fr ++ fg) fb, toNat_append_eq_add fr fg] at hn
    exact ⟨fr, fg, fb, by omega, append_fields _ _ _ _ ▸ decodeChunk_diff rest fr fg fb⟩
  · obtain ⟨fgm, rfl, hn⟩ := exists_append_of_div 0b10#2 (show t.toNat / 64 = 2 by omega)
    obtain ⟨frg, fbg, rfl⟩ := eq_nibbles u
    have hu := toNat_append_eq_add frg fbg
    exact ⟨fgm, frg, fbg, by omega, hu.symm, decodeChunk_luma rest fgm frg fbg⟩
  · obtain ⟨frun, rfl, hn⟩ := exists_append_of_div 0b11#2 (show t.toNat / 64 = 3 by omega)
    exact ⟨frun, by omega, by omega, decodeChunk_run rest (by omega)⟩
  · rintro rfl r g b
    exact decodeChunk_rgb rest r g b
  · rintro rfl r g b a
    exact decodeChunk_rgba rest r g b a

end Sys2Proof
end

/-! ### The numbers of the bytes, and the biases -/

section
namespace Sys2Proof.Machine

/-! #### The bytes of an encoding as numbers (R86 to R89) -/

theorem encode_index_toNat (k : BitVec 6) : (encode (.index k)).map BitVec.toNat = [k.toNat] := by
  show [(0b00#2 ++ k).toNat] = _
  rw [toNat_append_eq_add]
  simp

theorem encode_diff_toNat (fr fg fb : BitVec 2) :
    (encode (.diff fr fg fb)).map BitVec.toNat = [0x40 + fr.toNat * 16 + fg.toNat * 4 + fb.toNat] := by
  show [(0b01#2 ++ fr ++ fg ++ fb).toNat] = _
  simp only [toNat_append_eq_add, BitVec.toNat_ofNat, List.cons.injEq, and_true]
  omega

theorem encode_luma_toNat (fgm : BitVec 6) (frg fbg : BitVec 4) :
    (encode (.luma fgm frg fbg)).map BitVec.toNat = [0x80 + fgm.toNat, frg.toNat * 16 + fbg.toNat] := by
  show [(0b10#2 ++ fgm).toNat, (frg ++ fbg).toNat] = _
  rw [toNat_append_eq_add, toNat_append_eq_add]
  rfl

theorem encode_run_toNat (frun : BitVec 6) : (encode (.run frun)).map BitVec.toNat = [0xC0 + frun.toNat] := by
  show [(0b11#2 ++ frun).toNat] = _
  rw [toNat_append_eq_add]
  rfl

/-- A sequence of bytes whose values are known as naturals, as integers. -/
theorem map_toNat_cast {bytes : List Byte} {ns : List Nat} (h : bytes.map BitVec.toNat = ns) :
    (bytes.map fun t => (t.toNat : Int)) = ns.map fun n : Nat => (n : Int) := by
  rw [← h, List.map_map]
  rfl

/-! #### The biased fields (R87 to R89) -/

/-- An integer in a field's range is what the field holds. -/
theorem toNat_ofInt_of_lt {w : Nat} {x : Int} (h0 : 0 ≤ x) (hlt : x < 2 ^ w) :
    ((BitVec.ofInt w x).toNat : Int) = x := by
  have hmod : x % ((2 ^ w : Nat) : Int) = x := Int.emod_eq_of_lt h0 (by exact_mod_cast hlt)
  rw [BitVec.toNat_ofInt, hmod, Int.toNat_of_nonneg h0]

theorem diffField_toNat {d : Int} (h : -2 ≤ d ∧ d ≤ 1) : ((diffField d).toNat : Int) = d + 2 :=
  toNat_ofInt_of_lt (by omega) (by omega)

theorem diffDelta_diffField {d : Int} (h : -2 ≤ d ∧ d ≤ 1) : diffDelta (diffField d) = d := by
  rw [diffDelta, diffField_toNat h]
  omega

theorem lumaGreenField_toNat {d : Int} (h : -32 ≤ d ∧ d ≤ 31) : ((lumaGreenField d).toNat : Int) = d + 32 :=
  toNat_ofInt_of_lt (by omega) (by omega)

theorem lumaGreen_lumaGreenField {d : Int} (h : -32 ≤ d ∧ d ≤ 31) : lumaGreen (lumaGreenField d) = d := by
  rw [lumaGreen, lumaGreenField_toNat h]
  omega

theorem lumaRelField_toNat {d : Int} (h : -8 ≤ d ∧ d ≤ 7) : ((lumaRelField d).toNat : Int) = d + 8 :=
  toNat_ofInt_of_lt (by omega) (by omega)

theorem lumaRel_lumaRelField {d : Int} (h : -8 ≤ d ∧ d ≤ 7) : lumaRel (lumaRelField d) = d := by
  rw [lumaRel, lumaRelField_toNat h]
  omega

theorem runField_toNat {n : Nat} (h : 1 ≤ n ∧ n ≤ 62) : (runField n).toNat = n - 1 := by
  rw [runField, BitVec.toNat_ofNat]
  omega

theorem diffDelta_range (f : BitVec 2) : -2 ≤ diffDelta f ∧ diffDelta f ≤ 1 := by
  have := f.isLt
  rw [diffDelta]
  omega

theorem lumaGreen_range (f : BitVec 6) : -32 ≤ lumaGreen f ∧ lumaGreen f ≤ 31 := by
  have := f.isLt
  rw [lumaGreen]
  omega

theorem lumaRel_range (f : BitVec 4) : -8 ≤ lumaRel f ∧ lumaRel f ≤ 7 := by
  have := f.isLt
  rw [lumaRel]
  omega

/-! #### The statements -/

/-- An encoding with nothing behind it decodes. -/
theorem decode_encode {i : Instr} (h : i.WellFormed = true) : decode i.place (encode i) = .ok (i, []) := by
  simpa using encodeThenDecode i [] h

/-- Settles O1: each word is the encoding of an instruction, so it decodes to it. -/
theorem specWordsDecode : Obligations.SpecWordsDecode :=
  ⟨decode_encode (i := .rgb 100 150 200) rfl, decode_encode (i := .rgba 100 150 200 128) rfl,
    decode_encode (i := .index 49) rfl, decode_encode (i := .diff 0b11 0b10 0b01) rfl,
    decode_encode (i := .luma 52 6 3) rfl, decode_encode (i := .run 61) rfl, decode_encode (i := .header 200 1 3 0) rfl,
    decode_encode (i := .endMarker) rfl⟩

/-- Settles O5: the tag of INDEX is zero, so its byte is the index. -/
theorem indexByteIsIndex : Obligations.IndexByteIsIndex :=
  fun k => ⟨encode_index_toNat k, decode_encode (i := .index k) rfl⟩

/-- Settles O6: the fields' numbers, read and written, and the byte's number in the fields. -/
theorem diffFieldsAreBiased : Obligations.DiffFieldsAreBiased := by
  refine ⟨fun fr fg fb => ?_, fun dr dg db hr hg hb => ?_⟩
  · exact ⟨encode_diff_toNat fr fg fb, decode_encode (i := .diff fr fg fb) rfl, rfl, diffDelta_range fr⟩
  · refine ⟨⟨diffDelta_diffField hr, diffDelta_diffField hg, diffDelta_diffField hb⟩, ?_⟩
    rw [map_toNat_cast (encode_diff_toNat _ _ _)]
    simp [diffField_toNat hr, diffField_toNat hg, diffField_toNat hb]

/-- Settles O7: the fields' numbers, read and written, and the two bytes' numbers in the fields. -/
theorem lumaFieldsAreBiased : Obligations.LumaFieldsAreBiased := by
  refine ⟨fun fgm frg fbg => ?_, fun dg drg dbg hg hr hb => ?_⟩
  · obtain ⟨hgl, hgu⟩ := lumaGreen_range fgm
    obtain ⟨hrl, hru⟩ := lumaRel_range frg
    exact ⟨encode_luma_toNat fgm frg fbg, decode_encode (i := .luma fgm frg fbg) rfl, rfl, hgl, hgu, rfl, hrl, hru,
      by omega, by omega⟩
  · refine ⟨⟨lumaGreen_lumaGreenField hg, lumaRel_lumaRelField hr, lumaRel_lumaRelField hb⟩, ?_⟩
    rw [map_toNat_cast (encode_luma_toNat _ _ _)]
    simp [lumaGreenField_toNat hg, lumaRelField_toNat hr, lumaRelField_toNat hb]

/-- Settles O8: the field's number, read and written, and the byte's number in the field. -/
theorem runFieldIsBiased : Obligations.RunFieldIsBiased := by
  refine ⟨fun frun hw => ?_, fun n hn => ?_⟩
  · exact ⟨encode_run_toNat frun, decode_encode (i := .run frun) (decide_eq_true hw), rfl, runLength_pos frun,
      Nat.succ_le_succ hw⟩
  · have hf := runField_toNat hn
    refine ⟨?_, decide_eq_true (by omega), by rw [encode_run_toNat, hf]⟩
    rw [runLength, hf]
    omega

/-- Settles O9: the header is the magic, two sizes of four bytes each, and two bytes. -/
theorem headerBytesAreBigEndian : Obligations.HeaderBytesAreBigEndian := by
  refine fun w h c cs => ⟨?_, ube32_toNat⟩
  rw [encode, List.map_append, List.map_append, List.map_append, be32_map_toNat, be32_map_toNat]
  rfl

/-! ### Forms the encoder never emits -/

/-- Why a pixel that differs from `prev` gets its chunk: the tests of R134 in their order. -/
inductive ChunkChoice (h : History) (p : Pixel) : Instr → Prop where
  | index (hhit : h.lookup (hash p) = p) : ChunkChoice h p (.index (hash p))
  | diff (hd : fitsDiff p h.prev = true) : ChunkChoice h p
      (.diff (diffField (sdelta p.r h.prev.r)) (diffField (sdelta p.g h.prev.g)) (diffField (sdelta p.b h.prev.b)))
  | luma (hd : fitsDiff p h.prev = false) (hl : fitsLuma p h.prev = true) : ChunkChoice h p
      (.luma (lumaGreenField (sdelta p.g h.prev.g)) (lumaRelField (sdelta p.r h.prev.r - sdelta p.g h.prev.g))
        (lumaRelField (sdelta p.b h.prev.b - sdelta p.g h.prev.g)))
  | rgb (hd : fitsDiff p h.prev = false) (hl : fitsLuma p h.prev = false) : ChunkChoice h p (.rgb p.r p.g p.b)
  | rgba (ha : p.a ≠ h.prev.a) : ChunkChoice h p (.rgba p.r p.g p.b p.a)

/-- R134's tests, made in order, choose the chunk. -/
theorem chunkChoice (h : History) (p : Pixel) : ChunkChoice h p (pixelChunk h p) := by
  unfold pixelChunk
  dsimp only
  split
  · exact .index ((hit_iff h p).1 ‹_›)
  · split
    · exact .diff ‹_›
    · rename_i hd
      split
      · exact .luma (eq_false_of_ne_true hd) ‹_›
      · rename_i hl
        split
        · exact .rgb (eq_false_of_ne_true hd) (eq_false_of_ne_true hl)
        · rename_i ha
          exact .rgba fun e => ha (decide_eq_true e)

theorem pixelChunk_ne_run (h : History) (p : Pixel) (frun : BitVec 6) : pixelChunk h p ≠ .run frun := by
  intro e
  cases e ▸ chunkChoice h p

/-- A signed delta of zero means equal channels (R113). -/
theorem sdelta_eq_zero_iff (c p : Byte) : sdelta c p = 0 ↔ c = p := by
  rw [sdelta_eq, ← BitVec.toInt_zero, BitVec.toInt_inj]
  exact sub_eq_zero

theorem diffField_inj {d d' : Int} (h : -2 ≤ d ∧ d ≤ 1) (h' : -2 ≤ d' ∧ d' ≤ 1) (e : diffField d = diffField d') :
    d = d' := by
  rw [← diffDelta_diffField h, e, diffDelta_diffField h']

theorem pixel_eq {p q : Pixel} (hr : p.r = q.r) (hg : p.g = q.g) (hb : p.b = q.b) (ha : p.a = q.a) : p = q := by
  cases p
  cases q
  rw [Pixel.mk.injEq]
  exact ⟨hr, hg, hb, ha⟩

/-- A DIFF of zero deltas would stand for `prev` itself, which takes no chunk of its own. -/
theorem eq_prev_of_diff_zero {p prev : Pixel} (hd : fitsDiff p prev = true)
    (e : Instr.diff (diffField (sdelta p.r prev.r)) (diffField (sdelta p.g prev.g)) (diffField (sdelta p.b prev.b))
      = .diff (diffField 0) (diffField 0) (diffField 0)) : p = prev := by
  obtain ⟨ha, hr, hg, hb⟩ := (fitsDiff_iff p prev).1 hd
  injection e with er eg eb
  exact pixel_eq ((sdelta_eq_zero_iff _ _).1 (diffField_inj hr (by decide) er))
    ((sdelta_eq_zero_iff _ _).1 (diffField_inj hg (by decide) eg))
    ((sdelta_eq_zero_iff _ _).1 (diffField_inj hb (by decide) eb)) ha

/-- The chunks of a pixel: none or a full RUN for `prev` again, and otherwise the pending run's RUN and the pixel's own
chunk (R134 to R136). -/
theorem pixelDecision_chunks (h : History) (run : Nat) (p : Pixel) :
    (p = h.prev ∧ ((pixelDecision h run p).1 = [] ∨ (pixelDecision h run p).1 = [.run 61]))
    ∨ (p ≠ h.prev ∧ (pixelDecision h run p).1 = flushRun run ++ [pixelChunk h p]) := by
  unfold pixelDecision
  split
  · split
    · exact .inl ⟨‹_›, .inr rfl⟩
    · exact .inl ⟨‹_›, .inl rfl⟩
  · exact .inr ⟨‹_›, rfl⟩

theorem flushRun_cases (run : Nat) : flushRun run = [] ∨ flushRun run = [.run (runField run)] := by
  unfold flushRun
  split
  · exact .inr rfl
  · exact .inl rfl

/-- A chunk emitted for a pixel is a RUN, or the chosen chunk of a pixel other than `prev`. -/
theorem mem_pixelDecision {h : History} {run : Nat} {p : Pixel} {i : Instr} (hi : i ∈ (pixelDecision h run p).1) :
    (∃ frun, i = .run frun) ∨ (p ≠ h.prev ∧ ChunkChoice h p i) := by
  rcases pixelDecision_chunks h run p with ⟨-, e | e⟩ | ⟨hp, e⟩ <;> rw [e] at hi
  · cases hi
  · exact .inl ⟨_, List.mem_singleton.1 hi⟩
  · rcases List.mem_append.1 hi with hi | hi
    · rcases flushRun_cases run with e | e <;> rw [e] at hi
      · cases hi
      · exact .inl ⟨_, List.mem_singleton.1 hi⟩
    · exact .inr ⟨hp, List.mem_singleton.1 hi ▸ chunkChoice h p⟩

/-- Two neighbours in a chunk stream: of two RUNs the first is full. -/
def FullRunBefore (i j : Instr) : Prop := ∀ a b, i = .run a → j = .run b → a = 61

/-- In a chunk stream a RUN directly followed by a RUN is full: a shorter one is flushed only by the chunk of another
pixel, or at the end (R135, R136). -/
theorem encodeLoop_isChain (h : History) (run : Nat) (ps : List Pixel) :
    (encodeLoop h run ps).IsChain FullRunBefore := by
  induction ps generalizing h run with
  | nil =>
    rw [encodeLoop]
    rcases flushRun_cases run with e | e <;> rw [e]
    · exact .nil
    · exact .singleton _
  | cons p ps ih =>
    rw [encodeLoop]
    have hrest := ih (pixelDecision h run p).2.1 (pixelDecision h run p).2.2
    rcases pixelDecision_chunks h run p with ⟨-, e | e⟩ | ⟨hp, e⟩ <;> rw [e]
    · exact hrest
    · refine List.isChain_cons.2 ⟨?_, hrest⟩
      rintro j - a b ⟨⟩ -
      rfl
    · have hchunk : (pixelChunk h p :: encodeLoop _ _ ps).IsChain FullRunBefore :=
        List.isChain_cons.2 ⟨fun j _ a b ha => absurd ha (pixelChunk_ne_run h p a), hrest⟩
      rw [List.append_assoc, List.singleton_append]
      rcases flushRun_cases run with e | e <;> rw [e]
      · exact hchunk
      · refine List.isChain_cons.2 ⟨?_, hchunk⟩
        rintro j ⟨⟩ a b - hb
        exact absurd hb (pixelChunk_ne_run h p b)

/-- Settles O50: each form fails the test of R134 that leads to its kind, and RUN, whatever its length, is none of
them; in a whole stream `encodeLoop_isChain` speaks of every two neighbours. -/
theorem encoderNeverEmits : Obligations.EncoderNeverEmits := by
  refine ⟨fun h run p i hi => ?_, fun h run ps front back a b _ e => ?_⟩
  · obtain ⟨frun, rfl⟩ | ⟨hp, hchoice⟩ := mem_pixelDecision hi
    · exact ⟨nofun, nofun, nofun, nofun, nofun, fun _ => ⟨frun, rfl⟩⟩
    · cases hchoice with
      | index hhit =>
        refine ⟨nofun, nofun, nofun, nofun, ?_, fun e => absurd e hp⟩
        rintro k ⟨⟩ hk e
        rw [hhit] at e
        exact hk (e ▸ rfl)
      | diff hd => exact ⟨fun e => hp (eq_prev_of_diff_zero hd e), nofun, nofun, nofun, nofun, fun e => absurd e hp⟩
      | luma hd hl => exact ⟨nofun, fun _ _ _ _ => hd, nofun, nofun, nofun, fun e => absurd e hp⟩
      | rgb hd hl => exact ⟨nofun, nofun, fun _ _ _ _ => ⟨hd, hl⟩, nofun, nofun, fun e => absurd e hp⟩
      | rgba ha =>
        refine ⟨nofun, nofun, nofun, ?_, nofun, fun e => absurd e hp⟩
        rintro r g b a ⟨⟩
        exact ha
  · have hchain := e ▸ encodeLoop_isChain h run ps
    obtain ⟨-, hfull, -⟩ := List.isChain_append_cons_cons.1 hchain
    exact hfull a b rfl rfl

end Sys2Proof.Machine
end

/-! ## 40_history.md: the channel arithmetic, the hash, and the lock-step law -/

/-! ### The arithmetic of channels and the hash -/

section
namespace Sys2Proof.Machine

/-- Adding an integer to a channel and then its signed delta undoes it, up to the range of a signed delta (R113). -/
theorem sdelta_uadd (p : Byte) {d : Int} (hd : -128 ≤ d ∧ d ≤ 127) : sdelta (uadd p d) p = d := by
  rw [sdelta_eq, uadd_eq, add_sub_cancel_left]
  exact BitVec.toInt_ofInt_eq_self (by decide) hd.1 (by omega)

theorem sdelta_range (c p : Byte) : -128 ≤ sdelta c p ∧ sdelta c p ≤ 127 := by
  rw [sdelta_eq]
  have hlo := BitVec.le_toInt (c - p)
  have hhi := BitVec.toInt_lt (x := c - p)
  omega

/-- Settles O14: in bit-vector arithmetic, `p + (c - p) = c`. -/
theorem deltaInversion : Obligations.DeltaInversion := by
  intro c p
  rw [uadd_eq, sdelta_eq, BitVec.ofInt_toInt, add_sub_cancel]

/-- Settles O12: the signed delta is in range and leads from `p` to `c`, and any integer in range is the signed delta of
the channel it leads to. -/
theorem signedDeltaIsUnique : Obligations.SignedDeltaIsUnique := by
  refine fun c p d => ⟨?_, ?_⟩
  · rintro rfl
    exact ⟨sdelta_range c p, deltaInversion c p⟩
  · rintro ⟨hd, rfl⟩
    exact sdelta_uadd p hd

/-- Settles O13: `wrap8` takes the residue modulo 256. -/
theorem unsignedAddWraps : Obligations.UnsignedAddWraps := by
  intro p d
  rw [uadd, wrap8, BitVec.toNat_ofInt]
  exact Int.toNat_of_nonneg (Int.emod_nonneg _ (by decide))

/-- Settles O10: `hash` keeps six bits of the weighted sum. -/
theorem hashIsWeightedSum : Obligations.HashIsWeightedSum := hash_toNat

/-- The weighted sum in 8-bit arithmetic is the sum modulo 256. -/
theorem byteSum_toNat (p : Pixel) : (p.r * 3 + p.g * 5 + p.b * 7 + p.a * 11).toNat
    = (p.r.toNat * 3 + p.g.toNat * 5 + p.b.toNat * 7 + p.a.toNat * 11) % 256 := by
  simp only [BitVec.toNat_add, BitVec.toNat_mul, BitVec.reduceToNat]
  omega

/-- Settles O11: 64 divides 256, and modulo 64 the products and channels may be reduced first; a channel is at most
255. -/
theorem hashSurvivesNarrowing : Obligations.HashSurvivesNarrowing := by
  intro p
  rw [byteSum_toNat, hash_toNat]
  have := p.r.isLt; have := p.g.isLt; have := p.b.isLt; have := p.a.isLt
  refine ⟨?_, ?_, ?_, ?_, ?_⟩ <;> omega

end Sys2Proof.Machine
end

/-! ### The chunk of a pixel stands for that pixel -/

section
namespace Sys2Proof.Machine

/-- Moving `prev` by the signed deltas of a pixel of the same alpha gives that pixel (R115). -/
theorem movePixel_sdelta {p prev : Pixel} (ha : p.a = prev.a) :
    movePixel prev (sdelta p.r prev.r) (sdelta p.g prev.g) (sdelta p.b prev.b) = p :=
  pixel_eq (deltaInversion _ _) (deltaInversion _ _) (deltaInversion _ _) ha.symm

/-- DIFF's fields, read back, are the deltas they were made from (R87, R173). -/
theorem diffPixel_fields {p prev : Pixel} (h : fitsDiff p prev = true) :
    diffPixel prev (diffField (sdelta p.r prev.r)) (diffField (sdelta p.g prev.g)) (diffField (sdelta p.b prev.b))
      = p := by
  obtain ⟨ha, hr, hg, hb⟩ := (fitsDiff_iff p prev).1 h
  rw [diffPixel, diffDelta_diffField hr, diffDelta_diffField hg, diffDelta_diffField hb, movePixel_sdelta ha]

/-- LUMA's fields, read back and added to the green delta, are the deltas they were made from (R88, R174). -/
theorem lumaPixel_fields {p prev : Pixel} (h : fitsLuma p prev = true) :
    lumaPixel prev (lumaGreenField (sdelta p.g prev.g)) (lumaRelField (sdelta p.r prev.r - sdelta p.g prev.g))
      (lumaRelField (sdelta p.b prev.b - sdelta p.g prev.g)) = p := by
  obtain ⟨ha, hg, hr, hb⟩ := (fitsLuma_iff p prev).1 h
  rw [lumaPixel, lumaGreen_lumaGreenField hg, lumaRel_lumaRelField hr, lumaRel_lumaRelField hb, add_sub_cancel,
    add_sub_cancel, movePixel_sdelta ha]

/-- RGB is chosen for a pixel of `prev`'s alpha only. -/
theorem rgbPixel_fields {p prev : Pixel} (ha : p.a = prev.a) : rgbPixel prev p.r p.g p.b = p :=
  pixel_eq rfl rfl rfl ha.symm

/-- The chunk chosen for a pixel, read with the History it was chosen with, stands for that pixel once and leaves the
encoder's History: the law of R121 for one chunk (R134, R142). -/
theorem chunkMeaning_pixelChunk (h : History) (p : Pixel) :
    chunkMeaning (pixelChunk h p) h = (p, 1, pixelHistory h p) := by
  unfold pixelChunk pixelHistory
  dsimp only
  split
  · rename_i hhit
    rw [chunkMeaning, (hit_iff h p).1 hhit]
  · split
    · rename_i hdiff
      rw [chunkMeaning, diffPixel_fields hdiff]
    · split
      · rename_i hluma
        rw [chunkMeaning, lumaPixel_fields hluma]
      · split
        · rename_i halpha
          rw [chunkMeaning, rgbPixel_fields (of_decide_eq_true halpha)]
        · rfl

theorem pixelChunk_place (h : History) (p : Pixel) : (pixelChunk h p).place = .chunk := by
  cases hi : pixelChunk h p with
  | header => cases hi ▸ chunkChoice h p
  | endMarker => cases hi ▸ chunkChoice h p
  | _ => rfl

/-- A RUN of 1 to 62 pixels stands for that many copies of `prev` and leaves the History (R89, R175). -/
theorem chunkMeaning_runField (h : History) {n : Nat} (hn : 1 ≤ n ∧ n ≤ 62) :
    chunkMeaning (.run (runField n)) h = (h.prev, n, h) := by
  rw [chunkMeaning, (runFieldIsBiased.2 n hn).1]

end Sys2Proof.Machine
end

/-! ### A decoder that executes a sequence of chunks -/

section
namespace Sys2Proof.Machine

/-- The decoder after chunks of `size` bytes that stand for the Pixels `ps`: these are written and counted, and the
History is `h`. What the rest of the operation depends on beside these is unchanged. -/
structure Writes (d d' : Dec) (h : History) (ps : List Pixel) (size : Nat) : Prop where
  phase : d'.phase = d.phase
  hist : d'.hist = h
  pc : d'.pc = d.pc + size
  pos : d'.pos = d.pos + ps.length
  channels : d'.channels = d.channels
  npix : d'.npix = d.npix
  inlen : d'.inlen = d.inlen
  pix : d'.pix = Memory.writeBytes d.pix (d.pos * pixelSize d.channels) (joinPixels d.channels ps)

theorem joinPixels_append (c : Byte) (ps qs : List Pixel) :
    joinPixels c (ps ++ qs) = joinPixels c ps ++ joinPixels c qs := List.flatMap_append

theorem joinPixels_replicate (c : Byte) (n : Nat) (p : Pixel) :
    joinPixels c (List.replicate n p) = (List.replicate n (pixelBytes c p)).flatten := by
  rw [joinPixels, List.flatMap, List.map_replicate]

/-- A buffer of Pixels has `pixelSize` bytes for each (R51). -/
theorem joinPixels_length (c : Byte) (ps : List Pixel) : (joinPixels c ps).length = ps.length * pixelSize c := by
  simp [joinPixels, List.length_flatMap]

theorem writes_nil (d : Dec) : Writes d d d.hist [] 0 := ⟨rfl, rfl, rfl, rfl, rfl, rfl, rfl, rfl⟩

/-- What one chunk produces, as Pixels. -/
theorem Produced.writes {d d' : Dec} {h : History} {p : Pixel} {n size : Nat} (hd : Produced d d' h p n size) :
    Writes d d' h (List.replicate n p) size where
  phase := hd.phase
  hist := hd.hist
  pc := hd.pc
  pos := by rw [hd.pos, List.length_replicate]
  channels := hd.channels
  npix := hd.npix
  inlen := hd.inlen
  pix := by rw [hd.pix, joinPixels_replicate]

/-- Chunks after chunks: the second write continues where the first ends. -/
theorem Writes.trans {d d' d'' : Dec} {h h' : History} {ps qs : List Pixel} {m n : Nat} (hd : Writes d d' h ps m)
    (hd' : Writes d' d'' h' qs n) : Writes d d'' h' (ps ++ qs) (m + n) where
  phase := hd'.phase.trans hd.phase
  hist := hd'.hist
  pc := by rw [hd'.pc, hd.pc, Nat.add_assoc]
  pos := by rw [hd'.pos, hd.pos, List.length_append, Nat.add_assoc]
  channels := hd'.channels.trans hd.channels
  npix := hd'.npix.trans hd.npix
  inlen := hd'.inlen.trans hd.inlen
  pix := by
    rw [hd'.pix, hd.pix, hd.pos, hd.channels, joinPixels_append, writeBytes_append, joinPixels_length, Nat.add_mul]

/-- Executing the chunks `is` from `s` writes the Pixels `ps` and leaves the decoder's History `h`; the encoder is not
touched. -/
def ExecWrites (is : List Instr) (s : State) (h : History) (ps : List Pixel) : Prop :=
  ∃ d', execAll is s = .next (s.withDec d') ∧ Writes s.dec d' h ps (encodeAll is).length

theorem execWrites_nil (s : State) : ExecWrites [] s s.dec.hist [] := ⟨s.dec, rfl, writes_nil s.dec⟩

/-- An enabled chunk, all inside the stream, whose `n` pixels the image has room for (R164 to R176). -/
theorem execWrites_singleton {i : Instr} {s : State} {h : History} {p : Pixel} {n : Nat} (hi : i.place = .chunk)
    (hm : chunkMeaning i s.dec.hist = (p, n, h)) (hb : s.dec.phase = .busy) (hp : s.dec.pos + n ≤ s.dec.npix)
    (hl : s.dec.pc + (encode i).length ≤ s.dec.inlen) : ExecWrites [i] s h (List.replicate n p) := by
  have hn : 0 < n := by simpa only [hm] using chunkMeaning_pos i s.dec.hist hi
  have hclamp : min n (s.dec.npix - s.dec.pos) = n := by omega
  obtain ⟨f, hf, hprod⟩ := exec_chunk i hi
  have hd := (hprod s.dec (by omega)).writes
  rw [encode_length] at hl
  rw [hm, hclamp] at hd
  refine ⟨f s.dec, ?_, by rwa [encodeAll_singleton, encode_length]⟩
  rw [execAll, hf, chunkStep_next _ f s hb (by omega) hl]
  rfl

theorem execAll_append {is : List Instr} {s t : State} (js : List Instr) (h : execAll is s = .next t) :
    execAll (is ++ js) s = execAll js t := by
  induction is generalizing s with
  | nil =>
    cases h
    rfl
  | cons i is ih =>
    rw [List.cons_append, execAll]
    rw [execAll] at h
    cases he : exec i s with
    | next u =>
      rw [he] at h
      exact ih h
    | fault r => rw [he] at h; cases h
    | refused r => rw [he] at h; cases h

/-- Chunks after chunks, the later ones executed by the decoder that the earlier ones leave. -/
theorem execWrites_append {is js : List Instr} {s : State} {h h' : History} {ps qs : List Pixel}
    (hfirst : ExecWrites is s h ps)
    (hthen : ∀ d', Writes s.dec d' h ps (encodeAll is).length → ExecWrites js (s.withDec d') h' qs) :
    ExecWrites (is ++ js) s h' (ps ++ qs) := by
  obtain ⟨d', hexec, hd⟩ := hfirst
  obtain ⟨d'', hexec', hd'⟩ := hthen d' hd
  refine ⟨d'', ?_, ?_⟩
  · rw [execAll_append js hexec, hexec', withDec_withDec]
  · rw [encodeAll_append, List.length_append]
    exact hd.trans hd'

end Sys2Proof.Machine
end

/-! ### The lock-step law -/

section
namespace Sys2Proof.Machine

section
variable {s : State} (hb : s.dec.phase = .busy)
include hb

/-- A RUN of 1 to 62 pixels that the image has room for writes them all (R175). -/
theorem execWrites_run {n : Nat} (hn : 1 ≤ n ∧ n ≤ 62) (hp : s.dec.pos + n ≤ s.dec.npix)
    (hl : s.dec.pc + 1 ≤ s.dec.inlen) :
    ExecWrites [.run (runField n)] s s.dec.hist (List.replicate n s.dec.hist.prev) :=
  execWrites_singleton rfl (chunkMeaning_runField s.dec.hist hn) hb hp hl

/-- The flush of a pending run writes the pixels that were pending (R136). -/
theorem execWrites_flushRun {run : Nat} (hr : run ≤ 61) (hp : s.dec.pos + run ≤ s.dec.npix)
    (hl : s.dec.pc + (encodeAll (flushRun run)).length ≤ s.dec.inlen) :
    ExecWrites (flushRun run) s s.dec.hist (List.replicate run s.dec.hist.prev) := by
  rw [flushRun_length] at hl
  unfold flushRun
  split
  · rename_i hpos
    rw [if_pos hpos] at hl
    exact execWrites_run hb ⟨hpos, by omega⟩ hp hl
  · rename_i hzero
    obtain rfl : run = 0 := by omega
    exact execWrites_nil s

/-- The pixel's own chunk writes that pixel and leaves the encoder's History. -/
theorem execWrites_pixelChunk {p : Pixel} (hp : s.dec.pos + 1 ≤ s.dec.npix)
    (hl : s.dec.pc + (encode (pixelChunk s.dec.hist p)).length ≤ s.dec.inlen) :
    ExecWrites [pixelChunk s.dec.hist p] s (pixelHistory s.dec.hist p) [p] :=
  execWrites_singleton (pixelChunk_place _ p) (chunkMeaning_pixelChunk _ p) hb hp hl

/-- The flush of a pending run and then the pixel's own chunk write all of the run and the pixel: a flush leaves the
History the chunk was chosen with. -/
theorem execWrites_flush_chunk {run : Nat} {p : Pixel} (hr : run ≤ 61) (hp : s.dec.pos + run + 1 ≤ s.dec.npix)
    (hl : s.dec.pc + (encodeAll (flushRun run ++ [pixelChunk s.dec.hist p])).length ≤ s.dec.inlen) :
    ExecWrites (flushRun run ++ [pixelChunk s.dec.hist p]) s (pixelHistory s.dec.hist p)
      (List.replicate run s.dec.hist.prev ++ [p]) := by
  rw [encodeAll_append, encodeAll_singleton, List.length_append] at hl
  refine execWrites_append (execWrites_flushRun hb hr (by omega) (by omega)) fun d' hd => ?_
  have hchunk := execWrites_pixelChunk (s := s.withDec d') (p := p) (hd.phase.trans hb)
  simp only [withDec_dec, hd.hist, hd.pos, hd.npix, hd.pc, hd.inlen, List.length_replicate] at hchunk
  exact hchunk hp (by omega)

/-- The chunks the encoder emits for a pixel write the pixels no longer pending: the pending run completed by the pixel,
none while the run grows, or the run and the pixel after it (R121, R134 to R136). -/
theorem execWrites_pixelDecision {run : Nat} {p : Pixel} (hr : run ≤ 61) (hp : s.dec.pos + run + 1 ≤ s.dec.npix)
    (hl : s.dec.pc + (encodeAll (pixelDecision s.dec.hist run p).1).length ≤ s.dec.inlen) :
    ExecWrites (pixelDecision s.dec.hist run p).1 s (pixelDecision s.dec.hist run p).2.1
      ((List.replicate run s.dec.hist.prev ++ [p]).take (run + 1 - (pixelDecision s.dec.hist run p).2.2)) := by
  have htake : (List.replicate run s.dec.hist.prev ++ [p]).take (run + 1)
      = List.replicate run s.dec.hist.prev ++ [p] := List.take_of_length_le (by simp)
  unfold pixelDecision at hl ⊢
  split
  · rename_i hprev
    rw [if_pos hprev] at hl
    split
    · rename_i hfull
      rw [if_pos hfull] at hl
      dsimp only
      rw [Nat.sub_zero, htake, hprev, ← List.replicate_succ', hfull]
      exact execWrites_run hb (by decide) (by omega) hl
    · dsimp only
      rw [Nat.sub_self]
      exact execWrites_nil s
  · rename_i hne
    rw [if_neg hne] at hl
    dsimp only
    rw [Nat.sub_zero, htake]
    exact execWrites_flush_chunk hb hr hp hl

end

/-- Settles O53: the chunks of a pixel write the pixels no longer pending, and as many of the run and the pixel remain
pending as the encoder counts. -/
theorem lockStep : Obligations.LockStep := by
  intro s run p hb hr hp hl
  obtain ⟨d', hexec, hd⟩ := execWrites_pixelDecision hb hr hp hl
  refine ⟨s.withDec d', hexec, rfl, hd.phase.trans hb, hd.hist, ?_, hd.pc, hd.pix⟩
  have hpending : (pixelDecision s.dec.hist run p).2.2 ≤ run + 1 := by
    rcases pixelDecision_run s.dec.hist run p with h | ⟨h, -⟩ <;> omega
  simp only [withDec_dec, hd.pos, List.length_take, List.length_append, List.length_replicate, List.length_singleton]
  omega

end Sys2Proof.Machine
end

/-! ## 41_encoder.md: the round trip, the encoder as one function, and its operations -/

/-! ### The chunk loop reads back what the encoder wrote -/

section
namespace Sys2Proof.Machine

/-- The chunk loop, asked for as many pixels as `ps` has and with fuel for them, reads `ps` from `bytes` and leaves
`rest`. -/
def DecodesTo (h : History) (bytes : List Byte) (ps : List Pixel) (rest : List Byte) : Prop :=
  ∀ fuel, ps.length ≤ fuel → decodeLoop fuel ps.length h bytes = .ok (ps, rest)

theorem decodesTo_nil (h : History) (rest : List Byte) : DecodesTo h rest [] rest := by
  intro fuel _
  cases fuel <;> rfl

/-- A chunk in front adds the pixels it stands for, and what follows is read with the History it leaves (R164). -/
theorem decodesTo_chunk {i : Instr} {h h' : History} {p : Pixel} {n : Nat} {bytes rest : List Byte} {ps : List Pixel}
    (hi : i.place = .chunk) (hw : i.WellFormed = true) (hm : chunkMeaning i h = (p, n, h'))
    (hd : DecodesTo h' bytes ps rest) : DecodesTo h (encode i ++ bytes) (List.replicate n p ++ ps) rest := by
  intro fuel hfuel
  have hn : 0 < n := by simpa only [hm] using chunkMeaning_pos i h hi
  have hdec : decodeChunk (encode i ++ bytes) = .ok (i, bytes) := by
    have := encodeThenDecode i bytes hw
    rwa [hi] at this
  rw [List.length_append, List.length_replicate] at hfuel ⊢
  obtain ⟨fuel, rfl⟩ : ∃ k, fuel = k + 1 := ⟨fuel - 1, by omega⟩
  have hmin : min n (n + ps.length) = n := by omega
  rw [decodeLoop, if_neg (by omega), hdec]
  simp only [hm, hmin, Nat.add_sub_cancel_left, hd fuel (by omega)]

/-- The flush of a pending run is read as the pixels that were pending (R136). -/
theorem decodesTo_flushRun {h : History} {run : Nat} {bytes rest : List Byte} {ps : List Pixel} (hr : run ≤ 61)
    (hd : DecodesTo h bytes ps rest) :
    DecodesTo h (encodeAll (flushRun run) ++ bytes) (List.replicate run h.prev ++ ps) rest := by
  unfold flushRun
  split
  · have hn : 1 ≤ run ∧ run ≤ 62 := by omega
    rw [encodeAll_singleton]
    exact decodesTo_chunk rfl (runFieldIsBiased.2 run hn).2.1 (chunkMeaning_runField h hn) hd
  · obtain rfl : run = 0 := by omega
    exact hd

theorem pixelChunk_wellFormed (h : History) (p : Pixel) : (pixelChunk h p).WellFormed = true := by
  cases hi : pixelChunk h p with
  | run frun => exact absurd hi (pixelChunk_ne_run h p frun)
  | _ => rfl

/-- A pixel's own chunk is read as that pixel, with the History the encoder keeps (R121). -/
theorem decodesTo_pixelChunk {h : History} {p : Pixel} {bytes rest : List Byte} {ps : List Pixel}
    (hd : DecodesTo (pixelHistory h p) bytes ps rest) :
    DecodesTo h (encode (pixelChunk h p) ++ bytes) (p :: ps) rest :=
  decodesTo_chunk (pixelChunk_place h p) (pixelChunk_wellFormed h p) (chunkMeaning_pixelChunk h p) hd

theorem pixelHistory_prev (h : History) (p : Pixel) : (pixelHistory h p).prev = p := by
  unfold pixelHistory
  split <;> rfl

/-- The chunks of a sequence of pixels are read as the pending run and those pixels, by a decoder whose History is the
encoder's (R146). -/
theorem decodesTo_encodeLoop (h : History) {run : Nat} (ps : List Pixel) (rest : List Byte) (hr : run ≤ 61) :
    DecodesTo h (encodeAll (encodeLoop h run ps) ++ rest) (List.replicate run h.prev ++ ps) rest := by
  induction ps generalizing h run with
  | nil => exact decodesTo_flushRun hr (decodesTo_nil h rest)
  | cons p ps ih =>
    rw [encodeLoop, encodeAll_append, List.append_assoc, pixelDecision]
    split
    · rename_i hprev
      have hrun : List.replicate run h.prev ++ p :: ps = List.replicate (run + 1) h.prev ++ ps := by
        rw [hprev, List.replicate_succ', List.append_assoc, List.singleton_append]
      rw [hrun]
      split
      · rename_i hfull
        rw [hfull, encodeAll_singleton]
        exact decodesTo_chunk rfl rfl (chunkMeaning_runField h (by decide)) (ih h (Nat.zero_le 61))
      · exact ih h (show run + 1 ≤ 61 by omega)
    · rw [encodeAll_append, encodeAll_singleton, List.append_assoc]
      exact decodesTo_flushRun hr (decodesTo_pixelChunk (ih (pixelHistory h p) (Nat.zero_le 61)))

end Sys2Proof.Machine
end

/-! ### The round trip -/

section
namespace Sys2Proof.Machine

/-- Bytes of one pixel are read as a Pixel and written as they were (R54, R55). -/
theorem pixelBytes_pixelOfBytes {c : Byte} {bytes : List Byte} (h : bytes.length = pixelSize c) :
    pixelBytes c (pixelOfBytes bytes) = bytes := by
  unfold pixelSize at h
  unfold pixelBytes
  split at h
  · rw [if_pos ‹_›]
    match bytes, h with
    | [_, _, _, _], _ => rfl
  · rw [if_neg ‹_›]
    match bytes, h with
    | [_, _, _], _ => rfl

/-- A buffer of `n` pixels, split into Pixels and joined again (R51). -/
theorem joinPixels_splitPixels (c : Byte) {n : Nat} {bytes : List Byte} (h : bytes.length = n * pixelSize c) :
    joinPixels c (splitPixels c n bytes) = bytes := by
  induction n generalizing bytes with
  | zero =>
    rw [Nat.zero_mul, List.length_eq_zero_iff] at h
    rw [h]
    rfl
  | succ n ih =>
    rw [Nat.succ_mul] at h
    have hfirst : (bytes.take (pixelSize c)).length = pixelSize c := by rw [List.length_take]; omega
    have hrest : (bytes.drop (pixelSize c)).length = n * pixelSize c := by rw [List.length_drop]; omega
    rw [splitPixels, joinPixels, List.flatMap_cons, pixelBytes_pixelOfBytes hfirst]
    exact (congrArg _ (ih hrest)).trans (List.take_append_drop _ _)

theorem validChannels_ne_false {c : Byte} (hc : c = 3 ∨ c = 4) : validChannels c ≠ false := by
  rw [(validChannels_iff c).2 hc]
  decide

/-- A stream of a header that passes the checks, chunks that are read as one Pixel for each of the image, and the
marker is decoded to those Pixels (R180). -/
theorem decodeStream_ok {w h : BitVec 32} {c : Byte} (cs : Byte) {chunks : List Byte} {ps : List Pixel} (hw : w ≠ 0)
    (hh : h ≠ 0) (hc : c = 3 ∨ c = 4) (hn : ps.length = w.toNat * h.toNat)
    (hd : DecodesTo History.start (chunks ++ encode .endMarker) ps (encode .endMarker)) :
    decodeStream (encode (.header w h c cs) ++ chunks ++ encode .endMarker)
      = .ok { pixels := joinPixels c ps, width := w, height := h, channels := c, colorspace := cs } := by
  have hloop := hd ps.length (Nat.le_refl _)
  rw [hn] at hloop
  simp only [decodeStream, List.append_assoc, decodeHeader_encode, hloop]
  rw [if_neg (not_or.2 ⟨hw, hh⟩), if_neg (validChannels_ne_false hc)]
  rfl

/-- Settles O54: the chunk loop reads the Pixels of the buffer back, and joined they are the buffer. -/
theorem roundTrip : Obligations.RoundTrip := by
  intro pix w h c cs out ho
  obtain ⟨hr, rfl⟩ := encodeImage_ok ho
  obtain ⟨hw, hh, hc, hlen⟩ := encStartError_none hr
  have hbuf : pix.length = w.toNat * h.toNat * pixelSize c := by rw [hlen, pixelSize_eq c hc]
  have hread := decodesTo_encodeLoop History.start (run := 0) (splitPixels c (w.toNat * h.toNat) pix)
    (encode .endMarker) (Nat.zero_le 61)
  rw [decodeStream_ok cs hw hh hc (splitPixels_length _ _ _) hread, joinPixels_splitPixels c hbuf]

end Sys2Proof.Machine
end

/-! ### ENC.START, and the step that runs the encoder's operations -/

section
namespace Sys2Proof.Machine

/-- Arguments that pass R131's checks raise no error. -/
theorem encStartError_ok {w h : BitVec 32} {c : Byte} (hw : w ≠ 0) (hh : h ≠ 0) (hc : c = 3 ∨ c = 4) :
    encStartError w h c (w.toNat * h.toNat * c.toNat) = .none := by
  rw [encStartError, if_neg (not_or.2 ⟨hw, hh⟩), if_neg (validChannels_ne_false hc),
    if_neg (not_not.2 rfl)]

section
variable {w h : BitVec 32} {c : Byte} (cs : Byte) {n : Nat} {s : State} (hp : s.enc.phase ≠ .busy)
include hp

/-- ENC.START with arguments that pass the checks (R132). -/
theorem encStart_begin (hr : encStartError w h c n = .none) :
    encStart w h c cs n s = .next (s.withEnc (s.enc.begin w h c cs n)) := by
  rw [encStart, if_neg hp, hr]

/-- ENC.START with arguments that fail a check (R131). -/
theorem encStart_raise {r : Err} (hr : encStartError w h c n = r) (hn : r ≠ .none) :
    encStart w h c cs n s = .next (raise .enc r s) := by
  rw [encStart, if_neg hp, hr]
  cases r with
  | none => exact absurd rfl hn
  | _ => rfl

end

/-- Settles O45: each clause makes the checks before its own pass and its own fail. -/
theorem encStartChecks : Obligations.EncStartChecks := by
  refine fun w h c cs n _ hp => ⟨fun hz => ?_, fun hwh hc => ?_, fun hwh hc hn => ?_⟩
  · exact encStart_raise cs hp (if_pos hz) (by decide)
  · refine encStart_raise cs hp ?_ (by decide)
    have hinvalid : validChannels c = false := eq_false_of_ne_true fun hv => not_or.2 hc ((validChannels_iff c).1 hv)
    rw [encStartError, if_neg (not_or.2 hwh), if_pos hinvalid]
  · refine encStart_raise cs hp ?_ (by decide)
    rw [encStartError, if_neg (not_or.2 hwh), if_neg (validChannels_ne_false hc), if_pos hn]

/-- Settles O46: the registers are those `Enc.begin` sets, and its one write is the header. -/
theorem encStartBeginsEncode : Obligations.EncStartBeginsEncode := fun _ _ _ cs _ hp hw hh hc =>
  ⟨_, encStart_begin cs hp (encStartError_ok hw hh hc), rfl, rfl, rfl, rfl, rfl, rfl, rfl, rfl, rfl, rfl, rfl, rfl,
    rfl, rfl, rfl, readBytes_writeBytes [] 0 _⟩

/-- When it is the encoder's move, the block's step is the encoder's, and then it is the decoder's turn. -/
theorem step_enc {s : State} (hm : mover s = some .enc) : step s = onNext (fun t => t.withTurn .dec) (encStep s) :=
  step_of_mover hm

/-- Settles O35: the block's step is the encoder's, which the phase and the pixels left decide. -/
theorem stepRunsEncoder : Obligations.StepRunsEncoder := by
  refine fun s hm => ⟨fun hb hl => ?_, fun hb hl => ?_, fun w h c cs n rest hp hh => ?_⟩
  · rw [step_enc hm, encStep_busy hb, if_pos hl]
  · rw [step_enc hm, encStep_busy hb, if_neg (by omega)]
  · rw [step_enc hm, encStep_rest hp, encHostMove_start hh]
    rfl

end Sys2Proof.Machine
end

/-! ### The bytes of ENC.PIXEL and ENC.FINISH -/

section
namespace Sys2Proof.Machine

/-- Bytes as the numbers the statements give them by. -/
def byteValues (bytes : List Byte) : List Int := bytes.map fun b => (b.toNat : Int)

theorem byteValues_append (bs cs : List Byte) : byteValues (bs ++ cs) = byteValues bs ++ byteValues cs :=
  List.map_append

/-- R134's tests as the inequalities of the rule. -/
theorem pixelChunk_eq (h : History) (p : Pixel) :
    pixelChunk h p =
      let dr := sdelta p.r h.prev.r
      let dg := sdelta p.g h.prev.g
      let db := sdelta p.b h.prev.b
      if h.lookup (hash p) = p then .index (hash p)
      else if p.a = h.prev.a ∧ (-2 ≤ dr ∧ dr ≤ 1) ∧ (-2 ≤ dg ∧ dg ≤ 1) ∧ (-2 ≤ db ∧ db ≤ 1) then
        .diff (diffField dr) (diffField dg) (diffField db)
      else if p.a = h.prev.a ∧ (-32 ≤ dg ∧ dg ≤ 31) ∧ (-8 ≤ dr - dg ∧ dr - dg ≤ 7) ∧ (-8 ≤ db - dg ∧ db - dg ≤ 7) then
        .luma (lumaGreenField dg) (lumaRelField (dr - dg)) (lumaRelField (db - dg))
      else if p.a = h.prev.a then .rgb p.r p.g p.b
      else .rgba p.r p.g p.b p.a := by
  simp only [pixelChunk, hit_iff, fitsDiff_iff, fitsLuma_iff, alphaSame, decide_eq_true_eq]

/-- The bytes of a DIFF of deltas in range (R87). -/
theorem byteValues_diff {dr dg db : Int} (hr : -2 ≤ dr ∧ dr ≤ 1) (hg : -2 ≤ dg ∧ dg ≤ 1) (hb : -2 ≤ db ∧ db ≤ 1) :
    byteValues (encode (.diff (diffField dr) (diffField dg) (diffField db)))
      = [0x40 + (dr + 2) * 16 + (dg + 2) * 4 + (db + 2)] :=
  (diffFieldsAreBiased.2 dr dg db hr hg hb).2

/-- The bytes of a LUMA of deltas in range (R88). -/
theorem byteValues_luma {dg drg dbg : Int} (hg : -32 ≤ dg ∧ dg ≤ 31) (hr : -8 ≤ drg ∧ drg ≤ 7)
    (hb : -8 ≤ dbg ∧ dbg ≤ 7) :
    byteValues (encode (.luma (lumaGreenField dg) (lumaRelField drg) (lumaRelField dbg)))
      = [0x80 + (dg + 32), (drg + 8) * 16 + (dbg + 8)] :=
  (lumaFieldsAreBiased.2 dg drg dbg hg hr hb).2

/-- The byte of a RUN of 1 to 62 pixels (R89). -/
theorem byteValues_run {n : Nat} (hn : 1 ≤ n ∧ n ≤ 62) :
    byteValues (encode (.run (runField n))) = [0xC0 + ((n : Int) - 1)] := by
  rw [byteValues, map_toNat_cast (runFieldIsBiased.2 n hn).2.2, List.map_singleton]
  congr 1
  omega

/-- The bytes of a pixel's own chunk are those of R134's rule. -/
theorem byteValues_pixelChunk (h : History) (p : Pixel) :
    byteValues (encode (pixelChunk h p)) = ruleChunkBytes h p := by
  rw [pixelChunk_eq, ruleChunkBytes]
  dsimp only
  split
  · rename_i hhit
    rw [if_pos (show h.cache[(hash p).toNat]'((hash p).isLt) = p from hhit)]
    exact map_toNat_cast (encode_index_toNat (hash p))
  · rename_i hhit
    rw [if_neg (show ¬h.cache[(hash p).toNat]'((hash p).isLt) = p from hhit)]
    split
    · rename_i hd
      obtain ⟨-, hr, hg, hb⟩ := hd
      exact byteValues_diff hr hg hb
    · split
      · rename_i hl
        obtain ⟨-, hg, hr, hb⟩ := hl
        exact byteValues_luma hg hr hb
      · split <;> rfl

/-- The bytes of the flush of a pending run (R136). -/
theorem byteValues_flushRun {run : Nat} (hr : run ≤ 61) :
    byteValues (encodeAll (flushRun run)) = if 0 < run then [0xC0 + ((run : Int) - 1)] else [] := by
  unfold flushRun
  split
  · rw [encodeAll_singleton, byteValues_run (by omega)]
  · rfl

/-- The bytes emitted for a pixel (R134 to R136). -/
theorem byteValues_pixelDecision (h : History) {run : Nat} (p : Pixel) (hr : run ≤ 61) :
    byteValues (encodeAll (pixelDecision h run p).1)
      = if p = h.prev then (if run + 1 = 62 then [0xC0 + 61] else [])
        else (if 0 < run then [0xC0 + ((run : Int) - 1)] else []) ++ ruleChunkBytes h p := by
  unfold pixelDecision
  split
  · split
    · exact byteValues_run (n := 62) (by decide)
    · rfl
  · rw [encodeAll_append, byteValues_append, byteValues_flushRun hr, encodeAll_singleton, byteValues_pixelChunk]

/-- The run counter after a pixel (R135). -/
theorem pixelDecision_run_eq (h : History) (run : Nat) (p : Pixel) :
    (pixelDecision h run p).2.2 = if p = h.prev ∧ run + 1 ≠ 62 then run + 1 else 0 := by
  unfold pixelDecision
  split
  · rename_i hprev
    split
    · rw [if_neg fun hc => hc.2 ‹_›]
    · rw [if_pos ⟨hprev, ‹_›⟩]
  · rw [if_neg fun hc => absurd hc.1 ‹_›]

/-- The History after a pixel (R142). -/
theorem pixelDecision_hist_eq (h : History) (run : Nat) (p : Pixel) :
    (pixelDecision h run p).2.1 =
      if p = h.prev then h
      else if h.cache[(hash p).toNat]'((hash p).isLt) = p then ⟨h.cache, p⟩
      else ⟨h.cache.set (hash p).toNat p (hash p).isLt, p⟩ := by
  unfold pixelDecision pixelHistory
  simp only [hit_iff]
  split
  · split <;> rfl
  · rfl

/-- Settles O47: the step consumes the pixel; its bytes, run counter and History are those of the decision. -/
theorem encPixelDecision : Obligations.EncPixelDecision := by
  intro s p hb hl hr hp
  refine ⟨encodeAll (pixelDecision s.enc.hist s.enc.run p).1, ?_, byteValues_pixelDecision s.enc.hist p hr⟩
  rw [encPixel_next hb hl hp, ← pixelDecision_run_eq, ← pixelDecision_hist_eq s.enc.hist s.enc.run p]
  rfl

/-- ENC.FINISH, enabled (R143). -/
theorem encFinish_next {s : State} (hb : s.enc.phase = .busy) (hl : s.enc.pos = s.enc.npix) :
    encFinish s
      = .next (s.withEnc { s.enc.flushAndMark with outlen := s.enc.flushAndMark.wp, phase := .done }) :=
  if_pos ⟨hb, hl⟩

/-- What is emitted in two pieces is emitted in one. -/
theorem emit_emit (e : Enc) (bs cs : List Byte) : (e.emit bs).emit cs = e.emit (bs ++ cs) := by
  simp only [Enc.emit, writeBytes_append, List.length_append, Nat.add_assoc]

/-- The pending run's chunk and the marker are one write (R143). -/
theorem flushAndMark_eq (e : Enc) :
    e.flushAndMark = { e.emit (encodeAll (flushRun e.run) ++ encode .endMarker) with run := 0 } := by
  rw [Enc.flushAndMark, emit_emit]

/-- Settles O48: the step emits the pending run's chunk and the marker. -/
theorem encFinishWritesMarker : Obligations.EncFinishWritesMarker := by
  intro s hb hl hr
  refine ⟨encodeAll (flushRun s.enc.run) ++ encode .endMarker, ?_, ?_⟩
  · rw [encFinish_next hb hl, flushAndMark_eq]
    rfl
  · exact (byteValues_append _ _).trans (congrArg (· ++ _) (byteValues_flushRun hr))

end Sys2Proof.Machine
end

/-! ### Opaque pixels, and the cap of a run -/

section
namespace Sys2Proof.Machine

/-- Settles O49: RGBA is chosen only when alpha changes, and an INDEX's entry is the pixel itself, which is opaque. -/
theorem opaquePixelsNeedNoAlpha : Obligations.OpaquePixelsNeedNoAlpha := by
  intro h run p hp hprev i hi
  obtain ⟨frun, rfl⟩ | ⟨-, hchoice⟩ := mem_pixelDecision hi
  · exact ⟨nofun, nofun⟩
  · cases hchoice with
    | index hhit =>
      refine ⟨nofun, ?_⟩
      rintro k ⟨⟩ hempty
      rw [hhit] at hempty
      rw [hempty] at hp
      exact absurd hp (by decide)
    | rgba ha => exact absurd (hp.trans hprev.symm) ha
    | _ => exact ⟨nofun, nofun⟩

/-- Pixels equal to `prev` that do not fill a run only count (R135). -/
theorem encodeLoop_pending (h : History) {run n : Nat} (ps : List Pixel) (hn : run + n ≤ 61) :
    encodeLoop h run (List.replicate n h.prev ++ ps) = encodeLoop h (run + n) ps := by
  induction n generalizing run with
  | zero => rfl
  | succ n ih =>
    have hdec : pixelDecision h run h.prev = ([], h, run + 1) := by
      rw [pixelDecision, if_pos rfl, if_neg (by omega)]
    rw [List.replicate_succ, List.cons_append, encodeLoop, hdec, List.nil_append,
      ih (show run + 1 + n ≤ 61 by omega), Nat.add_assoc, Nat.add_comm 1]

/-- 62 pixels equal to `prev` are one full RUN (R135). -/
theorem encodeLoop_full (h : History) (ps : List Pixel) :
    encodeLoop h 0 (List.replicate 62 h.prev ++ ps) = .run 61 :: encodeLoop h 0 ps := by
  have hdec : pixelDecision h 61 h.prev = ([.run 61], h, 0) := by
    rw [pixelDecision, if_pos rfl]
    rfl
  rw [List.replicate_succ' (n := 61), List.append_assoc, encodeLoop_pending h _ (by omega), List.singleton_append,
    encodeLoop, hdec]
  rfl

/-- Pixels equal to `prev` are full RUNs and one for the remainder (R135, R136). -/
theorem encodeLoop_replicate_prev (h : History) (q : Nat) {r : Nat} (hr : r ≤ 61) :
    encodeLoop h 0 (List.replicate (62 * q + r) h.prev) = List.replicate q (.run 61) ++ flushRun r := by
  induction q with
  | zero =>
    have hpending := encodeLoop_pending h (run := 0) [] (n := r) (by omega)
    rw [List.append_nil] at hpending
    rw [Nat.mul_zero, Nat.zero_add, hpending, Nat.zero_add]
    rfl
  | succ q ih =>
    have hsplit : 62 * (q + 1) + r = 62 + (62 * q + r) := by omega
    rw [hsplit, List.replicate_add, encodeLoop_full, ih]
    rfl

/-- Settles O51: 200 and 199 pixels equal to `prev` are three full RUNs and one of 14 or 13; a first pixel other than
`prev` takes its own chunk and is `prev` then. -/
theorem runCap : Obligations.RunCap := by
  intro p
  split
  · subst p
    exact encodeLoop_replicate_prev History.start 3 (r := 14) (by omega)
  · rename_i hne
    refine ⟨pixelChunk History.start p, pixelChunk_ne_run _ _, ?_⟩
    have hdec : pixelDecision History.start 0 p
        = ([pixelChunk History.start p], pixelHistory History.start p, 0) := if_neg hne
    have hrest := encodeLoop_replicate_prev (pixelHistory History.start p) 3 (r := 13) (by omega)
    rw [pixelHistory_prev] at hrest
    rw [List.replicate_succ (n := 199), encodeLoop, hdec]
    exact congrArg _ hrest

end Sys2Proof.Machine
end

/-! ### The encoder's steps are the function `encode` -/

section
namespace Sys2Proof.Machine

/-! #### The output space -/

/-- The output space holds `out` from address 0 up to `wp`, and nothing else. -/
def Enc.Emitted (e : Enc) (out : List Byte) : Prop := e.str = Memory.writeBytes [] 0 out ∧ e.wp = out.length

/-- `emit` lengthens what was emitted (R53). -/
theorem Enc.Emitted.emit {e : Enc} {out : List Byte} (h : e.Emitted out) (bs : List Byte) :
    (e.emit bs).Emitted (out ++ bs) := by
  obtain ⟨hstr, hwp⟩ := h
  refine ⟨?_, ?_⟩
  · rw [emit_str, hstr, hwp, writeBytes_append, Nat.zero_add]
  · rw [emit_wp, hwp, List.length_append]

/-- In DONE, with `outlen` at `wp`, the result is what was emitted (R234). -/
theorem Enc.Emitted.result {e : Enc} {out : List Byte} (h : e.Emitted out) (hd : e.phase = .done)
    (hl : e.outlen = e.wp) : e.result = some out := by
  obtain ⟨hstr, hwp⟩ := h
  rw [Enc.result, if_pos hd, hl, hwp, hstr, readBytes_writeBytes]
  rfl

/-- A successful ENC.START has emitted the header (R132). -/
theorem emitted_begin (e : Enc) (w h : BitVec 32) (c cs : Byte) (n : Nat) :
    (e.begin w h c cs n).Emitted (encode (.header w h c cs)) := ⟨rfl, Nat.zero_add _⟩

/-! #### The input space -/

/-- One read is two reads side by side. -/
theorem readBytes_split {m : Memory} {a n k : Nat} {bytes : List Byte} (h : Memory.readBytes m a (n + k) = .ok bytes) :
    Memory.readBytes m a n = .ok (bytes.take n) ∧ Memory.readBytes m (a + n) k = .ok (bytes.drop n) := by
  obtain ⟨hlen, hread⟩ := (readBytes_ok_iff _ _ _ _).1 h
  refine ⟨(readBytes_ok_iff _ _ _ _).2 ⟨?_, fun i hi => ?_⟩, (readBytes_ok_iff _ _ _ _).2 ⟨?_, fun i hi => ?_⟩⟩
  · rw [List.length_take]
    omega
  · rw [List.getElem?_take_of_lt hi, hread i (by omega)]
  · rw [List.length_drop]
    omega
  · rw [List.getElem?_drop, Nat.add_assoc, hread (n + i) (by omega)]

/-! #### Steps with the decoder resting -/

/-- A step of the encoder, the decoder resting, is the block's step. -/
theorem step_enc_resting {s t : State} (hd : s.dec.Resting) (he : encEnabled s = true) (h : encStep s = .next t) :
    step s = .next (t.withTurn .dec) := by
  rw [step_enc (mover_enc hd he), h]
  rfl

theorem encEnabled_busy {s : State} (hb : s.enc.phase = .busy) (hl : s.enc.pos ≤ s.enc.npix) : encEnabled s = true := by
  simpa only [encEnabled, hb] using decide_eq_true hl

theorem encEnabled_host {s : State} {m : EncMove} {rest : List EncMove} (hp : s.enc.phase ≠ .busy)
    (hh : s.enc.host = m :: rest) : encEnabled s = true := by
  unfold encEnabled
  rw [hh]
  cases he : s.enc.phase with
  | busy => exact absurd he hp
  | _ => rfl

/-- The encoder's step with a pixel left, whose bytes are placed (R133). -/
theorem encStep_pixel {s : State} {p : Pixel} (hb : s.enc.phase = .busy) (hl : s.enc.pos < s.enc.npix)
    (hp : s.enc.pixRead s.enc.pos = .ok p) : encStep s = .next (s.withEnc (s.enc.consume p)) := by
  rw [encStep_busy hb, if_pos hl, encPixel_next hb hl hp]

/-- The encoder's step with no pixel left (R143). -/
theorem encStep_finish {s : State} (hb : s.enc.phase = .busy) (hl : s.enc.pos = s.enc.npix) :
    encStep s = .next (s.withEnc { s.enc.flushAndMark with outlen := s.enc.flushAndMark.wp, phase := .done }) := by
  rw [encStep_busy hb, if_neg (by omega), encFinish_next hb hl]

/-- ENC.START of the host's list is the block's step (R130). -/
theorem step_start {s t : State} {w h : BitVec 32} {c cs : Byte} {n : Nat} {rest : List EncMove} (hd : s.dec.Resting)
    (hp : s.enc.phase ≠ .busy) (hh : s.enc.host = .start w h c cs n :: rest)
    (hs : encStart w h c cs n (s.withEnc (s.enc.taken rest)) = .next t) : step s = .next (t.withTurn .dec) :=
  step_enc_resting hd (encEnabled_host hp hh) (by rw [encStep_rest hp, encHostMove_start hh, hs])

/-- `k + 1` steps are a step and `k` steps. -/
theorem run_succ {s t : State} (k : Nat) (h : step s = .next t) :
    Sys2Proof.core.run (k + 1) s = Sys2Proof.core.run k t := by
  have hcore : Sys2Proof.core.step s = .next t := h
  simp only [Host.Core.run, hcore]

/-- `k` steps end in DONE with the stream `out`; the decoder is unchanged. -/
def EncodesTo (k : Nat) (s : State) (out : List Byte) : Prop :=
  ∃ t, Sys2Proof.core.run k s = .next t ∧ t.enc.phase = .done ∧ t.enc.result = some out ∧ t.dec = s.dec

theorem encodesTo_succ {k : Nat} {s t : State} {out : List Byte} (h : step s = .next t) (hd : t.dec = s.dec)
    (ht : EncodesTo k t out) : EncodesTo (k + 1) s out := by
  obtain ⟨u, hrun, hdone, hout, hdec⟩ := ht
  exact ⟨u, (run_succ k h).trans hrun, hdone, hout, hdec.trans hd⟩

/-! #### From START to DONE -/

/-- The encoder has emitted `out` and has `n` pixels left, whose bytes in the input space are `bytes`; the decoder is
resting. -/
structure Encoding (s : State) (out : List Byte) (n : Nat) (bytes : List Byte) : Prop where
  busy : s.enc.phase = .busy
  resting : s.dec.Resting
  left : s.enc.pos + n = s.enc.npix
  input : Memory.readBytes s.enc.pix (s.enc.pos * pixelSize s.enc.channels) (n * pixelSize s.enc.channels) = .ok bytes
  emitted : s.enc.Emitted out

/-- With no pixel left the step is ENC.FINISH, which emits the pending run's chunk and the marker (R143). -/
theorem Encoding.finish {s : State} {out bytes : List Byte} (h : Encoding s out 0 bytes) :
    EncodesTo 1 s (out ++ (encodeAll (flushRun s.enc.run) ++ encode .endMarker)) := by
  have hl : s.enc.pos = s.enc.npix := h.left
  have hstep := encStep_finish h.busy hl
  have hemitted := h.emitted.emit (encodeAll (flushRun s.enc.run) ++ encode .endMarker)
  rw [flushAndMark_eq] at hstep
  refine encodesTo_succ (step_enc_resting h.resting (encEnabled_busy h.busy (by omega)) hstep) rfl ⟨_, rfl, rfl, ?_, rfl⟩
  exact Enc.Emitted.result hemitted rfl rfl

/-- With a pixel left the step is ENC.PIXEL on the first pixel of the bytes (R133, R134). -/
theorem Encoding.pixel {s : State} {out bytes : List Byte} {n : Nat} (h : Encoding s out (n + 1) bytes) :
    let p := pixelOfBytes (bytes.take (pixelSize s.enc.channels))
    let t := (s.withEnc (s.enc.consume p)).withTurn .dec
    step s = .next t ∧ Encoding t (out ++ encodeAll (pixelDecision s.enc.hist s.enc.run p).1) n
      (bytes.drop (pixelSize s.enc.channels)) := by
  have hleft := h.left
  have hinput := h.input
  rw [Nat.succ_mul, Nat.add_comm (n * _)] at hinput
  obtain ⟨hfirst, hrest⟩ := readBytes_split hinput
  have hstep := encStep_pixel h.busy (by omega) (pixRead_ok hfirst)
  refine ⟨step_enc_resting h.resting (encEnabled_busy h.busy (by omega)) hstep, ?_⟩
  exact
    { busy := h.busy
      resting := h.resting
      left := show s.enc.pos + 1 + n = s.enc.npix by omega
      input := by rw [← Nat.succ_mul] at hrest; exact hrest
      emitted := h.emitted.emit _ }

/-- The steps that are left emit the chunks of the pixels left and the marker, as the function's loop does (R144). -/
theorem Encoding.encodesTo {s : State} {out bytes : List Byte} {n : Nat} (h : Encoding s out n bytes) :
    EncodesTo (n + 1) s (out ++ (encodeAll (encodeLoop s.enc.hist s.enc.run (splitPixels s.enc.channels n bytes))
      ++ encode .endMarker)) := by
  induction n generalizing s out bytes with
  | zero => exact h.finish
  | succ n ih =>
    obtain ⟨hstep, hnext⟩ := h.pixel
    have hrest := encodesTo_succ hstep rfl (ih hnext)
    rw [splitPixels, encodeLoop, encodeAll_append, List.append_assoc, ← List.append_assoc out]
    exact hrest

/-- A successful ENC.START on a buffer that is placed leaves every pixel to be encoded (R132). -/
theorem encoding_begin {s : State} {pix : List Byte} {w h : BitVec 32} {c : Byte} (cs : Byte) (rest : List EncMove)
    (hr : encStartError w h c pix.length = .none) (hpix : Memory.readBytes s.enc.pix 0 pix.length = .ok pix)
    (hd : s.dec.Resting) :
    Encoding ((s.withEnc ((s.enc.taken rest).begin w h c cs pix.length)).withTurn .dec) (encode (.header w h c cs))
      (w.toNat * h.toNat) pix := by
  obtain ⟨-, -, hc, hlen⟩ := encStartError_none hr
  rw [← pixelSize_eq c hc] at hlen
  exact
    { busy := rfl
      resting := hd
      left := Nat.zero_add _
      input := by
        show Memory.readBytes s.enc.pix (0 * pixelSize c) (w.toNat * h.toNat * pixelSize c) = .ok pix
        rw [Nat.zero_mul, ← hlen, hpix]
      emitted := emitted_begin _ w h c cs _ }

/-- The error of the encoder function is that of ENC.START's checks (R131, R144). -/
theorem encodeImage_error {pix : List Byte} {w h : BitVec 32} {c cs : Byte} {r : Err}
    (ho : encodeImage pix w h c cs = .error r) : encStartError w h c pix.length = r ∧ r ≠ .none := by
  unfold encodeImage at ho
  split at ho
  · cases ho
  · rename_i hr
    injection ho with ho
    exact ⟨ho, ho ▸ hr⟩

/-- Settles O55: ENC.START emits the header, each ENC.PIXEL what the function's loop does for one pixel, and ENC.FINISH
the rest; or ENC.START raises the function's error. -/
theorem encoderIsEncodeFunction : Obligations.EncoderIsEncodeFunction := by
  refine fun s pix w h c cs hp hh hpix hd => ⟨fun out ho => ?_, fun r ho => ?_⟩
  · obtain ⟨hr, rfl⟩ := encodeImage_ok ho
    have hstart := step_start hd hp hh (encStart_begin (s := s.withEnc (s.enc.taken [])) cs hp hr)
    rw [List.append_assoc]
    exact encodesTo_succ hstart rfl (encoding_begin cs [] hr hpix hd).encodesTo
  · obtain ⟨hr, hn⟩ := encodeImage_error ho
    have hstart := step_start hd hp hh (encStart_raise (s := s.withEnc (s.enc.taken [])) cs hp hr hn)
    exact ⟨_, run_succ 0 hstart, rfl, rfl, rfl⟩

end Sys2Proof.Machine
end

/-! ## 42_decoder.md: the decoder's fetches, its steps, the decoder as one function, and its instructions -/

/-! ### What the decoder fetches from bytes that are placed -/

section
namespace Sys2Proof.Machine

/-! #### At one place -/

section
variable {d : Dec} {i : Instr} {e : DecodeError} {bytes rest : List Byte}

theorem fetchHeader_short (h : d.inlen < 14) : fetchHeader d = .failed .truncated := if_pos h

theorem fetchHeader_ok (hl : 14 ≤ d.inlen) (hr : Memory.readBytes d.str 0 14 = .ok bytes)
    (hd : decode .start bytes = .ok (i, rest)) : fetchHeader d = .instr i := by
  rw [fetchHeader, if_neg (Nat.not_lt.2 hl), fetchAt_ok hr hd]

theorem fetchHeader_error (hl : 14 ≤ d.inlen) (hr : Memory.readBytes d.str 0 14 = .ok bytes)
    (hd : decode .start bytes = .error e) : fetchHeader d = .failed e := by
  rw [fetchHeader, if_neg (Nat.not_lt.2 hl), fetchAt_error hr hd]

theorem fetchEnd_short (h : d.inlen < d.pc + 8) : fetchEnd d = .failed .truncated := if_pos h

theorem fetchEnd_ok (hl : d.pc + 8 ≤ d.inlen) (hr : Memory.readBytes d.str d.pc 8 = .ok bytes)
    (hd : decode .finish bytes = .ok (i, rest)) : fetchEnd d = .instr i := by
  rw [fetchEnd, if_neg (Nat.not_lt.2 hl), fetchAt_ok hr hd]

theorem fetchEnd_error (hl : d.pc + 8 ≤ d.inlen) (hr : Memory.readBytes d.str d.pc 8 = .ok bytes)
    (hd : decode .finish bytes = .error e) : fetchEnd d = .failed e := by
  rw [fetchEnd, if_neg (Nat.not_lt.2 hl), fetchAt_error hr hd]

/-- The chunk that the bytes at `pc` decode to: its first byte gives its size (R84, R165). -/
theorem fetchChunk_ok (hl : d.pc + i.size ≤ d.inlen) (hr : Memory.readBytes d.str d.pc i.size = .ok bytes)
    (hd : decode .chunk bytes = .ok (i, rest)) : fetchChunk d = .instr i := by
  cases bytes with
  | nil => cases hd
  | cons t tail =>
    have hsize := (size_of_decodeChunk_ok hd).1
    obtain ⟨hlen, hread⟩ := (readBytes_ok_iff _ _ _ _).1 hr
    rw [List.length_cons] at hlen
    have ht : Memory.read d.str d.pc = some t := hread 0 (by omega)
    rw [fetchChunk, if_neg (by omega), ht]
    dsimp only
    rw [← hsize, if_neg (by omega), fetchAt_ok hr hd]

theorem fetch_chunk (hp : d.pos < d.npix) : fetch d = fetchChunk d := if_pos hp

theorem fetch_end (hp : d.pos = d.npix) : fetch d = fetchEnd d := if_neg (by omega)

end

/-! #### From the whole rest of the stream -/

/-- `bytes` is what the stream holds from `pc` to its end, all of it placed (R30, R32, R233). -/
structure Dec.Ahead (d : Dec) (bytes : List Byte) : Prop where
  length : d.pc + bytes.length = d.inlen
  read : Memory.readBytes d.str d.pc bytes.length = .ok bytes

/-- A read of two sequences side by side reads the first, and then the second. -/
theorem readBytes_of_append {m : Memory} {a : Nat} {v w : List Byte}
    (h : Memory.readBytes m a (v ++ w).length = .ok (v ++ w)) :
    Memory.readBytes m a v.length = .ok v ∧ Memory.readBytes m (a + v.length) w.length = .ok w := by
  rw [List.length_append] at h
  simpa using readBytes_split h

/-- A decoder whose `pc` has moved past the front has the rest ahead. -/
theorem Dec.Ahead.advance {d d' : Dec} {v w : List Byte} (h : d.Ahead (v ++ w)) (hpc : d'.pc = d.pc + v.length)
    (hlen : d'.inlen = d.inlen) (hstr : d'.str = d.str) : d'.Ahead w where
  length := by rw [hpc, hlen, ← h.length, List.length_append, Nat.add_assoc]
  read := by rw [hpc, hstr]; exact (readBytes_of_append h.read).2

/-- A decoder that has placed what it announced has some bytes ahead (R233). -/
theorem exists_ahead {d : Dec} (hpc : d.pc ≤ d.inlen) (hld : d.Loaded) : ∃ bytes, d.Ahead bytes := by
  obtain ⟨bytes, hb⟩ := readBytes_total d.str d.pc (d.inlen - d.pc) fun k hk => hld _ (by omega)
  have hlen := ((readBytes_ok_iff _ _ _ _).1 hb).1
  exact ⟨bytes, by omega, by rwa [hlen]⟩

/-- What decodes from the front of placed bytes is placed as its own encoding, which decodes to it alone. -/
theorem decode_front {place : Place} {m : Memory} {a : Nat} {bytes rest : List Byte} {i : Instr}
    (hr : Memory.readBytes m a bytes.length = .ok bytes) (hd : decode place bytes = .ok (i, rest)) :
    Memory.readBytes m a i.size = .ok (encode i) ∧ decode place (encode i) = .ok (i, [])
      ∧ bytes = encode i ++ rest ∧ bytes.length = i.size + rest.length := by
  obtain ⟨hw, rfl, rfl⟩ := decodeThenEncode place bytes i rest hd
  have hfront := (readBytes_of_append hr).1
  rw [encode_length] at hfront
  exact ⟨hfront, decode_encode hw, rfl, by rw [List.length_append, encode_length]⟩

section
variable {d : Dec} {i : Instr} {e : DecodeError} {bytes rest : List Byte} (h : d.Ahead bytes)
include h

/-- The chunk at the front of the bytes ahead is fetched; it is all inside the stream, and the rest is behind it. -/
theorem Dec.Ahead.chunk (hd : decodeChunk bytes = .ok (i, rest)) :
    fetchChunk d = .instr i ∧ d.pc + i.size ≤ d.inlen ∧ bytes = encode i ++ rest := by
  obtain ⟨hread, hdec, hbytes, hlen⟩ := decode_front (place := .chunk) h.read hd
  have hl : d.pc + i.size ≤ d.inlen := by rw [← h.length]; omega
  exact ⟨fetchChunk_ok hl hread hdec, hl, hbytes⟩

/-- Where the bytes ahead begin with no whole chunk, the fetch finds it cut short (R165). -/
theorem Dec.Ahead.no_chunk (hd : decodeChunk bytes = .error e) : fetchChunk d = .failed .truncated := by
  have hlen := h.length
  cases bytes with
  | nil => exact if_pos (Nat.le_of_eq hlen.symm)
  | cons t tail =>
    have ht : Memory.read d.str d.pc = some t := ((readBytes_ok_iff _ _ _ _).1 h.read).2 0 (Nat.succ_pos _)
    have hshort : ¬chunkSize t ≤ (t :: tail).length := fun hall => by
      obtain ⟨i, rest, hok⟩ := decodeChunk_total hall
      rw [hok] at hd
      cases hd
    rw [List.length_cons] at hlen hshort
    rw [fetchChunk, if_neg (by omega), ht]
    exact if_pos (by omega)

/-- The end marker at the front of the bytes ahead is fetched (R177). -/
theorem Dec.Ahead.marker (hd : decodeEnd bytes = .ok (i, rest)) :
    fetchEnd d = .instr .endMarker ∧ d.pc + 8 ≤ d.inlen := by
  obtain ⟨hread, hdec, -, hlen⟩ := decode_front (place := .finish) h.read hd
  have hplace := decode_place hdec
  cases i with
  | endMarker =>
    have hl : d.pc + 8 ≤ d.inlen := by rw [← h.length, hlen]; exact Nat.add_le_add_left (Nat.le_add_right 8 _) _
    exact ⟨fetchEnd_ok hl hread hdec, hl⟩
  | _ => cases hplace

/-- Where the bytes ahead do not begin with the end marker, the fetch fails (R177). -/
theorem Dec.Ahead.no_marker (hd : decodeEnd bytes = .error e) : ∃ e', fetchEnd d = .failed e' := by
  have hlen := h.length
  by_cases hl : d.inlen < d.pc + 8
  · exact ⟨_, fetchEnd_short hl⟩
  · have hread := h.read
    rw [← List.take_append_drop 8 bytes] at hread hd
    have hfront := (readBytes_of_append hread).1
    have height : (bytes.take 8).length = 8 := by rw [List.length_take]; omega
    have hne : bytes.take 8 ≠ Config.marker := fun hm => by
      rw [hm] at hd
      cases hd
    rw [height] at hfront
    exact ⟨.badMarker, fetchEnd_error (by omega) hfront ((decodeEnd_eight height).trans (if_neg hne))⟩

end

/-! #### The header -/

theorem exists_be32 {v : List Byte} (h : v.length = 4) : ∃ x, v = be32 x := by
  match v, h with
  | [b0, b1, b2, b3], _ => exact ⟨ube32 b0 b1 b2 b3, (be32_ube32 b0 b1 b2 b3).symm⟩

theorem be32_eq_zero_iff (x : BitVec 32) : be32 x = [0, 0, 0, 0] ↔ x = 0 := by
  refine ⟨fun h => ?_, fun h => h ▸ rfl⟩
  obtain ⟨h3, h2, h1, h0, -⟩ : _ ∧ _ ∧ _ ∧ _ ∧ _ := by simpa only [be32, List.cons.injEq] using h
  rw [← ube32_be32 x, h3, h2, h1, h0]
  rfl

/-- Four bytes, two sizes and two bytes are a header exactly when the four bytes are the magic (R82, R162). -/
theorem decodeHeader_fields {m : List Byte} (w h : BitVec 32) (c cs : Byte) (rest : List Byte) (hm : m.length = 4) :
    decodeHeader (m ++ be32 w ++ be32 h ++ [c, cs] ++ rest)
      = if m = Config.magic then .ok (.header w h c cs, rest) else .error .badMagic := by
  split
  · rename_i hmagic
    rw [hmagic]
    exact decodeHeader_encode rest w h c cs
  · rename_i hmagic
    match m, hm with
    | [m0, m1, m2, m3], _ => exact if_neg hmagic

/-- Fourteen bytes or more begin with four bytes, two sizes and two bytes. -/
theorem exists_fields {bytes : List Byte} (hl : 14 ≤ bytes.length) :
    ∃ m w h c cs rest, m.length = 4 ∧ bytes = m ++ be32 w ++ be32 h ++ [c, cs] ++ rest := by
  match bytes, hl with
  | m0 :: m1 :: m2 :: m3 :: w0 :: w1 :: w2 :: w3 :: h0 :: h1 :: h2 :: h3 :: c :: cs :: rest, _ =>
    exact ⟨[m0, m1, m2, m3], ube32 w0 w1 w2 w3, ube32 h0 h1 h2 h3, c, cs, rest, rfl, by
      rw [be32_ube32, be32_ube32]; rfl⟩

section
variable {d : Dec} {i : Instr} {e : DecodeError} {bytes rest : List Byte} (hl : d.inlen = bytes.length)
  (hr : Memory.readBytes d.str 0 bytes.length = .ok bytes)
include hl hr

/-- The header at the front of the stream is fetched, and the rest is behind it (R160). -/
theorem fetchHeader_of_decode (hd : decodeHeader bytes = .ok (i, rest)) :
    fetchHeader d = .instr i ∧ 14 ≤ d.inlen ∧ bytes = encode i ++ rest := by
  obtain ⟨hread, hdec, hbytes, hlen⟩ := decode_front (place := .start) hr hd
  have hplace := decode_place hdec
  cases i with
  | header w h c cs =>
    have h14 : 14 ≤ d.inlen := by rw [hl, hlen]; exact Nat.le_add_right 14 _
    exact ⟨fetchHeader_ok h14 hread hdec, h14, hbytes⟩
  | _ => cases hplace

/-- A stream that begins with no header fails to be fetched for the reason it does not decode (R161, R162). -/
theorem fetchHeader_of_decode_error (hd : decodeHeader bytes = .error e) : fetchHeader d = .failed e := by
  by_cases h14 : bytes.length < 14
  · rw [decodeHeader_short h14] at hd
    cases hd
    exact fetchHeader_short (hl ▸ h14)
  · obtain ⟨m, w, h, c, cs, rest, hm, rfl⟩ := exists_fields (Nat.not_lt.1 h14)
    have hlen : (m ++ be32 w ++ be32 h ++ [c, cs]).length = 14 := by simp [hm, be32]
    have hfront := (readBytes_of_append hr).1
    have hdec := decodeHeader_fields w h c cs [] hm
    rw [decodeHeader_fields w h c cs rest hm] at hd
    rw [hlen] at hfront
    rw [List.append_nil] at hdec
    split at hd
    · cases hd
    · rename_i hmagic
      cases hd
      exact fetchHeader_error (by omega) hfront (hdec.trans (if_neg hmagic))

end

end Sys2Proof.Machine
end

/-! ### The decoder's steps, with the encoder resting -/

section
namespace Sys2Proof.Machine

/-- When it is the decoder's move, the block's step is the decoder's, and then it is the encoder's turn. -/
theorem step_dec {s : State} (hm : mover s = some .dec) : step s = onNext (fun t => t.withTurn .enc) (decStep s) :=
  step_of_mover hm

/-- A step of the decoder, the encoder resting, is the block's step. -/
theorem step_dec_resting {s t : State} (he : s.enc.Resting) (hd : decEnabled s = true) (h : decStep s = .next t) :
    step s = .next (t.withTurn .enc) := by
  rw [step_dec (mover_dec he hd), h]
  rfl

theorem decEnabled_busy_iff {s : State} (hb : s.dec.phase = .busy) : decEnabled s = true ↔ s.dec.pos ≤ s.dec.npix := by
  simp only [decEnabled, hb, decide_eq_true_eq]

theorem decEnabled_host {s : State} {m : DecMove} {rest : List DecMove} (hp : s.dec.phase ≠ .busy)
    (hh : s.dec.host = m :: rest) : decEnabled s = true := by
  unfold decEnabled
  rw [hh]
  cases hd : s.dec.phase with
  | busy => exact absurd hd hp
  | _ => rfl

/-- DEC.START of the host's list: latch, fetch the header, run what was fetched (R160). -/
theorem decStep_start {s : State} {n : Nat} {rest : List DecMove} (hp : s.dec.phase ≠ .busy)
    (hh : s.dec.host = .start n :: rest) :
    decStep s = runFetched (fetchHeader (s.dec.latch n rest)) (s.withDec (s.dec.latch n rest)) := by
  rw [decStep_rest hp, decHostMove_start hh]

/-- A BUSY decoder executes the instruction it fetches (R164). -/
theorem decStep_instr {s : State} {i : Instr} (hb : s.dec.phase = .busy) (hf : fetch s.dec = .instr i) :
    decStep s = exec i s := by
  rw [decStep_busy hb, hf]
  rfl

/-- A BUSY decoder that fetches no instruction raises TruncatedInput, whatever the reason (R165, R177). -/
theorem decStep_failed {s : State} {e : DecodeError} (hb : s.dec.phase = .busy) (hf : fetch s.dec = .failed e) :
    decStep s = .next (raise .dec .truncatedInput s) := by
  rw [decStep_busy hb, hf, runFetched, fetch_failed hf]

/-! #### The framing items -/

theorem validChannels_eq_false {c : Byte} (hc : ¬(c = 3 ∨ c = 4)) : validChannels c = false :=
  eq_false_of_ne_true fun hv => hc ((validChannels_iff c).1 hv)

section
variable {w h : BitVec 32} {c : Byte} (cs : Byte) {s : State} (hp : s.dec.phase ≠ .busy)
include hp

theorem exec_header_short (hl : s.dec.inlen < 14) :
    exec (.header w h c cs) s = .next (raise .dec .truncatedInput s) := by
  rw [exec_header, execHeader, if_neg hp, if_pos hl]

/-- A header of a zero size or a wrong channel count is refused (R162). -/
theorem exec_header_invalid (hl : 14 ≤ s.dec.inlen) (hbad : w = 0 ∨ h = 0 ∨ ¬(c = 3 ∨ c = 4)) :
    exec (.header w h c cs) s = .next (raise .dec .invalidHeader s) := by
  rw [exec_header, execHeader, if_neg hp, if_neg (Nat.not_lt.2 hl)]
  split
  · rfl
  · rename_i hsize
    obtain ⟨hw, hh⟩ := not_or.1 hsize
    exact if_pos (validChannels_eq_false ((hbad.resolve_left hw).resolve_left hh))

/-- A header that passes the checks begins a decode (R163). -/
theorem exec_header_begin (hl : 14 ≤ s.dec.inlen) (hw : w ≠ 0) (hh : h ≠ 0) (hc : c = 3 ∨ c = 4) :
    exec (.header w h c cs) s = .next (s.withDec (s.dec.begin w h c cs)) := by
  rw [exec_header, execHeader, if_neg hp, if_neg (Nat.not_lt.2 hl), if_neg (not_or.2 ⟨hw, hh⟩),
    if_neg (validChannels_ne_false hc)]

end

/-- END with every pixel produced and eight bytes left (R177). -/
theorem exec_endMarker_done {s : State} (hb : s.dec.phase = .busy) (hp : s.dec.pos = s.dec.npix)
    (hl : s.dec.pc + 8 ≤ s.dec.inlen) : exec .endMarker s = .next (s.withDec { s.dec with phase := .done }) := by
  rw [exec_endMarker, execEndMarker, if_pos ⟨hb, hp⟩, if_neg (Nat.not_lt.2 hl)]

end Sys2Proof.Machine
end

/-! ### The decoder's steps are the function `decode` -/

section
namespace Sys2Proof.Machine

/-! #### The rest of a stream as one function -/

/-- The chunks from a chunk boundary on, for the `n` pixels still missing, and the marker behind them: the Pixels, or
the error (R164, R177). `decodeStream_begin` says that it is what `decodeStream` does after the header. -/
def decodeRest (fuel n : Nat) (h : History) (bytes : List Byte) : Except Err (List Pixel) :=
  match decodeLoop fuel n h bytes with
  | .error e => .error e
  | .ok (ps, rest) =>
    match decodeEnd rest with
    | .error e => .error (decodeFailure e)
    | .ok _ => .ok ps

section
variable {h : History} {bytes rest : List Byte} {i : Instr}

/-- With no pixel missing the chunk loop reads nothing. -/
theorem decodeLoop_zero (fuel : Nat) (h : History) (bytes : List Byte) :
    decodeLoop fuel 0 h bytes = .ok ([], bytes) := decodesTo_nil h bytes fuel (Nat.zero_le fuel)

theorem decodeRest_marker (fuel : Nat) (hd : decodeEnd bytes = .ok (i, rest)) : decodeRest fuel 0 h bytes = .ok [] := by
  simp only [decodeRest, decodeLoop_zero, hd]

/-- A wrong or missing marker is TruncatedInput (R177, D8). -/
theorem decodeRest_no_marker (fuel : Nat) {e : DecodeError} (hd : decodeEnd bytes = .error e) :
    decodeRest fuel 0 h bytes = .error .truncatedInput := by
  have hne : e ≠ .badMagic := by
    rintro rfl
    cases decode_badMagic (place := .finish) hd
  simp only [decodeRest, decodeLoop_zero, hd, decodeFailure_of_ne hne]

/-- A chunk cut short is TruncatedInput (R165). -/
theorem decodeRest_no_chunk (fuel : Nat) {n : Nat} {e : DecodeError} (hn : n ≠ 0) (hd : decodeChunk bytes = .error e) :
    decodeRest (fuel + 1) n h bytes = .error .truncatedInput := by
  simp only [decodeRest, decodeLoop, if_neg hn, hd]

/-- A chunk's Pixels, clamped to those missing, stand before what the bytes behind it give (R164, R175). -/
theorem decodeRest_chunk (fuel : Nat) {n : Nat} (hn : n ≠ 0) (hd : decodeChunk bytes = .ok (i, rest)) :
    decodeRest (fuel + 1) n h bytes
      = (decodeRest fuel (n - min (chunkMeaning i h).2.1 n) (chunkMeaning i h).2.2 rest).map
        (List.replicate (min (chunkMeaning i h).2.1 n) (chunkMeaning i h).1 ++ ·) := by
  simp only [decodeRest, decodeLoop, if_neg hn, hd]
  cases decodeLoop fuel (n - min (chunkMeaning i h).2.1 n) (chunkMeaning i h).2.2 rest with
  | error e => rfl
  | ok r =>
    obtain ⟨ps, tail⟩ := r
    dsimp only
    cases decodeEnd tail <;> rfl

/-- After a header that passes the checks `decodeStream` is `decodeRest` (R180). -/
theorem decodeStream_begin {w ht : BitVec 32} {c cs : Byte} (hd : decodeHeader bytes = .ok (.header w ht c cs, rest))
    (hw : w ≠ 0) (hh : ht ≠ 0) (hc : c = 3 ∨ c = 4) :
    decodeStream bytes
      = (decodeRest (w.toNat * ht.toNat) (w.toNat * ht.toNat) History.start rest).map fun ps =>
        { pixels := joinPixels c ps, width := w, height := ht, channels := c, colorspace := cs } := by
  simp only [decodeStream, hd, decodeRest, if_neg (not_or.2 ⟨hw, hh⟩), if_neg (validChannels_ne_false hc)]
  cases decodeLoop (w.toNat * ht.toNat) (w.toNat * ht.toNat) History.start rest with
  | error e => rfl
  | ok r =>
    obtain ⟨ps, tail⟩ := r
    dsimp only
    cases decodeEnd tail <;> rfl

/-- A header that fails a check is InvalidHeader (R162). -/
theorem decodeStream_invalid {w ht : BitVec 32} {c cs : Byte} (hd : decodeHeader bytes = .ok (.header w ht c cs, rest))
    (hbad : w = 0 ∨ ht = 0 ∨ ¬(c = 3 ∨ c = 4)) : decodeStream bytes = .error .invalidHeader := by
  simp only [decodeStream, hd]
  split
  · rfl
  · rename_i hsize
    obtain ⟨hw, hh⟩ := not_or.1 hsize
    exact if_pos (validChannels_eq_false ((hbad.resolve_left hw).resolve_left hh))

end

/-! #### The decoder after chunks -/

/-- The decoder after chunks of `size` bytes that leave the History `h` and stand for the Pixels `ps`. -/
def Dec.after (d : Dec) (h : History) (ps : List Pixel) (size : Nat) : Dec :=
  { d with
    hist := h
    pc := d.pc + size
    pos := d.pos + ps.length
    pix := Memory.writeBytes d.pix (d.pos * pixelSize d.channels) (joinPixels d.channels ps) }

/-- What a chunk produces is all that it changes. -/
theorem Produced.eq_after {d d' : Dec} {h : History} {p : Pixel} {n size : Nat} (hd : Produced d d' h p n size) :
    d' = d.after h (List.replicate n p) size := by
  cases d'
  simp only [Dec.after, Dec.mk.injEq, List.length_replicate, joinPixels_replicate]
  exact ⟨hd.phase, hd.err, hd.hist, hd.pc, hd.pos, hd.width, hd.height, hd.channels, hd.colorspace, hd.npix, hd.inlen,
    hd.str, hd.pix, hd.host, hd.free⟩

/-- Chunks after chunks: the second write continues where the first ends. -/
theorem after_after (d : Dec) (h h' : History) (ps qs : List Pixel) (m n : Nat) :
    (d.after h ps m).after h' qs n = d.after h' (ps ++ qs) (m + n) := by
  simp only [Dec.after, joinPixels_append, writeBytes_append, joinPixels_length, List.length_append, Nat.add_mul,
    Nat.add_assoc]

/-! #### From a BUSY decoder to its end -/

/-- Within `m` steps, which leave the encoder as it is, the decoder ends as `r` says: in DONE with those Pixels written
and the image complete, or in ERROR with that error, which is TruncatedInput. -/
def EndsAs (m : Nat) (s : State) (r : Except Err (List Pixel)) : Prop :=
  ∃ k t, k ≤ m ∧ Sys2Proof.core.run k s = .next t ∧ t.enc = s.enc ∧
    match r with
    | .ok ps => ∃ h size, t.dec = { s.dec.after h ps size with phase := .done } ∧ t.dec.pos = t.dec.npix
    | .error e => t.dec.phase = .error ∧ t.dec.err = e ∧ e = .truncatedInput

/-- A step by chunks that stand for `ps`, before what is left. -/
theorem endsAs_step {m n : Nat} {s t : State} {h : History} {ps : List Pixel} {size : Nat}
    {r : Except Err (List Pixel)} (hstep : step s = .next t) (he : t.enc = s.enc) (hd : t.dec = s.dec.after h ps size)
    (hm : m < n) (ht : EndsAs m t r) : EndsAs n s (r.map (ps ++ ·)) := by
  obtain ⟨k, u, hk, hrun, henc, hu⟩ := ht
  refine ⟨k + 1, u, by omega, (run_succ k hstep).trans hrun, henc.trans he, ?_⟩
  cases r with
  | error e => exact hu
  | ok qs =>
    obtain ⟨h', size', hdec, hpos⟩ := hu
    rw [hd, after_after] at hdec
    exact ⟨h', _, hdec, hpos⟩

/-- The decoder is BUSY with `n` pixels missing and `bytes` ahead; the encoder is resting. -/
structure Decoding (s : State) (n : Nat) (bytes : List Byte) : Prop where
  busy : s.dec.phase = .busy
  resting : s.enc.Resting
  left : s.dec.pos + n = s.dec.npix
  ahead : s.dec.Ahead bytes

section
variable {s : State} {n : Nat} {bytes : List Byte}

theorem Decoding.enabled (h : Decoding s n bytes) : decEnabled s = true :=
  (decEnabled_busy_iff h.busy).2 (by have := h.left; omega)

/-- A fetch that fails ends the decode in one step. -/
theorem Decoding.endsAs_failed (h : Decoding s n bytes) {e : DecodeError} (hf : fetch s.dec = .failed e) :
    EndsAs (n + 1) s (.error .truncatedInput) :=
  ⟨1, _, by omega, run_succ 0 (step_dec_resting h.resting h.enabled (decStep_failed h.busy hf)), rfl, rfl, rfl, rfl⟩

/-- With no pixel missing the step is DEC.FINISH, which looks for the marker (R177). -/
theorem Decoding.endsAs_finish (h : Decoding s 0 bytes) (fuel : Nat) (hist : History) :
    EndsAs 1 s (decodeRest fuel 0 hist bytes) := by
  have hp : s.dec.pos = s.dec.npix := h.left
  cases hd : decodeEnd bytes with
  | error e =>
    obtain ⟨e', hf⟩ := h.ahead.no_marker hd
    rw [decodeRest_no_marker fuel hd]
    exact h.endsAs_failed ((fetch_end hp).trans hf)
  | ok r =>
    obtain ⟨hf, hl⟩ := h.ahead.marker hd
    have hstep := decStep_instr h.busy ((fetch_end hp).trans hf)
    rw [exec_endMarker_done h.busy hp hl] at hstep
    rw [decodeRest_marker fuel hd]
    exact ⟨1, _, Nat.le_refl 1, run_succ 0 (step_dec_resting h.resting h.enabled hstep), rfl, s.dec.hist, 0, rfl, hp⟩

/-- With a pixel missing and a whole chunk ahead the step executes it (R164). -/
theorem Decoding.chunk (h : Decoding s n bytes) (hn : n ≠ 0) {i : Instr} {rest : List Byte}
    (hd : decodeChunk bytes = .ok (i, rest)) :
    let m := min (chunkMeaning i s.dec.hist).2.1 n
    let t := (s.withDec (s.dec.after (chunkMeaning i s.dec.hist).2.2
      (List.replicate m (chunkMeaning i s.dec.hist).1) i.size)).withTurn .enc
    step s = .next t ∧ 0 < m ∧ Decoding t (n - m) rest := by
  have hleft := h.left
  obtain ⟨hf, hl, rfl⟩ := h.ahead.chunk hd
  have hp : s.dec.pos < s.dec.npix := by omega
  have hi : i.place = .chunk := decode_place (place := .chunk) hd
  obtain ⟨f, hexec, hprod⟩ := exec_chunk i hi
  have hfd := (hprod s.dec hp).eq_after
  have hm := chunkMeaning_pos i s.dec.hist hi
  have hstep := decStep_instr h.busy ((fetch_chunk hp).trans hf)
  rw [hexec, chunkStep_next _ f s h.busy hp hl, hfd, show s.dec.npix - s.dec.pos = n by omega] at hstep
  refine ⟨step_dec_resting h.resting h.enabled hstep, by omega, h.busy, h.resting, ?_, ?_⟩
  · simp only [withTurn_dec, withDec_dec, Dec.after, List.length_replicate]
    omega
  · exact h.ahead.advance (by rw [encode_length]; rfl) rfl rfl

/-- The steps that are left end as `decodeRest` says (R164, R177, R179). -/
theorem Decoding.endsAs (h : Decoding s n bytes) {fuel : Nat} (hfuel : n ≤ fuel) :
    EndsAs (n + 1) s (decodeRest fuel n s.dec.hist bytes) := by
  induction fuel generalizing s n bytes with
  | zero =>
    obtain rfl : n = 0 := by omega
    exact h.endsAs_finish 0 _
  | succ fuel ih =>
    by_cases hn : n = 0
    · subst hn
      exact h.endsAs_finish (fuel + 1) _
    · cases hd : decodeChunk bytes with
      | error e =>
        have hp : s.dec.pos < s.dec.npix := by have := h.left; omega
        rw [decodeRest_no_chunk fuel hn hd]
        exact h.endsAs_failed ((fetch_chunk hp).trans (h.ahead.no_chunk hd))
      | ok r =>
        obtain ⟨hstep, hm, hnext⟩ := h.chunk hn hd
        rw [decodeRest_chunk fuel hn hd]
        exact endsAs_step hstep rfl rfl (by omega) (ih hnext (by omega))

end

/-- Settles O44: the bytes ahead are placed, so the steps end as `decodeRest` says, whose only error is
TruncatedInput. -/
theorem decoderAlwaysEnds : Obligations.DecoderAlwaysEnds := by
  intro s hi hb hld he
  have hw := hi.dec.working hb
  obtain ⟨bytes, hahead⟩ := exists_ahead hw.pc_le hld
  have hleft : s.dec.pos + (s.dec.npix - s.dec.pos) = s.dec.npix := Nat.add_sub_cancel' hw.pos_le
  obtain ⟨k, t, hk, hrun, -, hend⟩ := Decoding.endsAs ⟨hb, he, hleft, hahead⟩ (Nat.le_refl _)
  refine ⟨k, t, hk, hrun, ?_⟩
  split at hend
  · obtain ⟨h, size, hdec, -⟩ := hend
    exact .inl (by rw [hdec])
  · obtain ⟨hphase, rfl, herr⟩ := hend
    exact .inr ⟨hphase, herr⟩

/-! #### From START to the end -/

/-- The decoder ends as the function says: in DONE with its image, within one step for each pixel and two more, or in
ERROR with its error; the encoder is unchanged. -/
def DecodesAs (s : State) : Except Err Image → Prop
  | .ok im => ∃ k t, 1 ≤ k ∧ k ≤ im.width.toNat * im.height.toNat + 2 ∧ Sys2Proof.core.run k s = .next t
      ∧ t.dec.phase = .done ∧ t.dec.result = some im.pixels ∧ t.dec.width = im.width ∧ t.dec.height = im.height
      ∧ t.dec.channels = im.channels ∧ t.dec.colorspace = im.colorspace ∧ t.enc = s.enc
  | .error r => ∃ k t, 1 ≤ k ∧ Sys2Proof.core.run k s = .next t ∧ t.dec.phase = .error ∧ t.dec.err = r ∧ t.enc = s.enc

/-- A DEC.START that raises. -/
theorem decodesAs_raise {s u : State} {r : Err} (h : step s = .next ((raise .dec r u).withTurn .enc))
    (he : u.enc = s.enc) : DecodesAs s (.error r) :=
  ⟨1, _, Nat.le_refl 1, run_succ 0 h, rfl, rfl, he⟩

/-- Once the image is complete its bytes are the result (R55, R234). -/
theorem result_after_begin (d : Dec) {w ht : BitVec 32} {c cs : Byte} {h : History} {ps : List Pixel} {size : Nat}
    (hc : c = 3 ∨ c = 4) (hn : ps.length = w.toNat * ht.toNat) :
    Dec.result { (d.begin w ht c cs).after h ps size with phase := .done } = some (joinPixels c ps) := by
  have hlen : w.toNat * ht.toNat * c.toNat = (joinPixels c ps).length := by
    rw [joinPixels_length, hn, pixelSize_eq c hc]
  have hpix : ((d.begin w ht c cs).after h ps size).pix = Memory.writeBytes [] 0 (joinPixels c ps) := by
    simp only [Dec.after, Dec.begin, Nat.zero_mul]
  rw [Dec.result, if_pos rfl]
  show (Memory.readBytes ((d.begin w ht c cs).after h ps size).pix 0 (w.toNat * ht.toNat * c.toNat)).toOption = _
  rw [hlen, hpix, readBytes_writeBytes]
  rfl

/-- A DEC.START that begins a decode, and what follows it (R163, R180). -/
theorem decodesAs_begin {s u : State} {w ht : BitVec 32} {c cs : Byte} {r : Except Err (List Pixel)}
    (hstep : step s = .next ((u.withDec (u.dec.begin w ht c cs)).withTurn .enc)) (he : u.enc = s.enc)
    (hc : c = 3 ∨ c = 4)
    (hend : EndsAs (w.toNat * ht.toNat + 1) ((u.withDec (u.dec.begin w ht c cs)).withTurn .enc) r) :
    DecodesAs s (r.map fun ps =>
      { pixels := joinPixels c ps, width := w, height := ht, channels := c, colorspace := cs }) := by
  obtain ⟨k, t, hk, hrun, henc, hout⟩ := hend
  have hrun' := (run_succ k hstep).trans hrun
  cases r with
  | error e =>
    obtain ⟨hphase, herr, -⟩ := hout
    exact ⟨k + 1, t, by omega, hrun', hphase, herr, henc.trans he⟩
  | ok ps =>
    obtain ⟨h, size, hdec, hpos⟩ := hout
    have hn : 0 + ps.length = w.toNat * ht.toNat := by rw [hdec] at hpos; exact hpos
    refine ⟨k + 1, t, by omega, Nat.succ_le_succ hk, hrun', by rw [hdec], ?_, ?_⟩
    · rw [hdec]
      exact result_after_begin u.dec hc (by omega)
    · rw [hdec]
      exact ⟨rfl, rfl, rfl, rfl, henc.trans he⟩

/-- A DEC.START that begins a decode has what is behind the header ahead, and every pixel missing (R163). -/
theorem decoding_begin {s : State} {w ht : BitVec 32} {c cs : Byte} {bytes rest : List Byte} (he : s.enc.Resting)
    (hl : s.dec.inlen = bytes.length) (hr : Memory.readBytes s.dec.str 0 bytes.length = .ok bytes)
    (hbytes : bytes = encode (.header w ht c cs) ++ rest) :
    Decoding ((s.withDec (s.dec.begin w ht c cs)).withTurn .enc) (w.toNat * ht.toNat) rest := by
  subst hbytes
  rw [List.length_append, encode_length] at hl
  exact ⟨rfl, he, Nat.zero_add _, hl.symm, (readBytes_of_append hr).2⟩

/-- With the stream placed and DEC.START waiting the decoder ends as the function says. -/
theorem decodesAs_decodeStream {s : State} {bytes : List Byte} (hp : s.dec.phase ≠ .busy)
    (hh : s.dec.host = [.start bytes.length]) (hr : Memory.readBytes s.dec.str 0 bytes.length = .ok bytes)
    (he : s.enc.Resting) : DecodesAs s (decodeStream bytes) := by
  have hstep : ∀ {t}, runFetched (fetchHeader (s.dec.latch bytes.length []))
      (s.withDec (s.dec.latch bytes.length [])) = .next t → step s = .next (t.withTurn .enc) := fun h =>
    step_dec_resting he (decEnabled_host hp hh) ((decStep_start hp hh).trans h)
  cases hd : decodeHeader bytes with
  | error e =>
    rw [fetchHeader_of_decode_error (d := s.dec.latch bytes.length []) rfl hr hd] at hstep
    simp only [decodeStream, hd]
    exact decodesAs_raise (hstep rfl) rfl
  | ok r =>
    obtain ⟨i, rest⟩ := r
    obtain ⟨hf, hl, hbytes⟩ := fetchHeader_of_decode (d := s.dec.latch bytes.length []) rfl hr hd
    have hplace : i.place = .start := decode_place (place := .start) hd
    rw [hf] at hstep
    cases i with
    | header w ht c cs =>
      by_cases hok : w ≠ 0 ∧ ht ≠ 0 ∧ (c = 3 ∨ c = 4)
      · obtain ⟨hw, hht, hc⟩ := hok
        have hend := (decoding_begin (s := s.withDec (s.dec.latch bytes.length [])) he rfl hr hbytes).endsAs
          (Nat.le_refl _)
        rw [decodeStream_begin hd hw hht hc]
        exact decodesAs_begin (hstep (exec_header_begin cs hp hl hw hht hc)) rfl hc hend
      · have hbad : w = 0 ∨ ht = 0 ∨ ¬(c = 3 ∨ c = 4) := by tauto
        rw [decodeStream_invalid hd hbad]
        exact decodesAs_raise (hstep (exec_header_invalid cs hp hl hbad)) rfl
    | _ => cases hplace

/-- Settles O56: DEC.START raises the function's error or begins its chunk loop, and each further step is one round of
that loop or the check of the marker. -/
theorem decoderIsDecodeFunction : Obligations.DecoderIsDecodeFunction := by
  intro s bytes hp hh hr he
  have hdec := decodesAs_decodeStream hp hh hr he
  refine ⟨fun im him => ?_, fun r her => ?_⟩
  · rw [him] at hdec
    exact hdec
  · rw [her] at hdec
    exact hdec

end Sys2Proof.Machine
end

/-! ### The six chunks -/

section
namespace Sys2Proof.Machine

section
variable {s : State} (hb : s.dec.phase = .busy) (hp : s.dec.pos < s.dec.npix)
include hb hp

/-- Both outcomes of an enabled chunk: it completes when it is all inside the stream, and raises TruncatedInput
otherwise (R164, R165). -/
theorem chunkStep_enabled (n : Nat) (f : Dec → Dec) :
    (s.dec.pc + n ≤ s.dec.inlen → chunkStep n f s = .next (s.withDec (f s.dec)))
    ∧ (s.dec.inlen < s.dec.pc + n → chunkStep n f s = .next (raise .dec .truncatedInput s)) :=
  ⟨chunkStep_next n f s hb hp, chunkStep_short n f s hb hp⟩

end

/-- Settles O16: RGB is a `chunkStep` of four bytes, whose `tail` writes the cache, `prev`, one pixel, `pos`
and `pc`. -/
theorem rgbChunk : Obligations.RgbChunk := fun r g b _ hb hp =>
  ⟨rfl, chunkStep_enabled hb hp 4 fun d => d.tail (rgbPixel d.hist.prev r g b) 4⟩

/-- Settles O17: RGBA is a `chunkStep` of five bytes, whose Pixel is the four bytes behind the tag. -/
theorem rgbaChunk : Obligations.RgbaChunk := fun r g b a _ hb hp =>
  ⟨rfl, chunkStep_enabled hb hp 5 fun d => d.tail (rgbaPixel r g b a) 5⟩

/-- Settles O18: INDEX is a `chunkStep` of one byte that replaces `prev` and not the cache. -/
theorem indexChunk : Obligations.IndexChunk := fun k _ hb hp =>
  ⟨rfl, chunkStep_enabled hb hp 1 fun d => (d.setHist (d.hist.setPrev (d.hist.lookup k))).produce (d.hist.lookup k) 1⟩

/-- Settles O19: DIFF is a `chunkStep` of one byte, whose Pixel is `prev` moved by its three fields. -/
theorem diffChunk : Obligations.DiffChunk := fun fr fg fb _ hb hp =>
  ⟨rfl, chunkStep_enabled hb hp 1 fun d => d.tail (diffPixel d.hist.prev fr fg fb) 1⟩

/-- The delta of red or blue that a LUMA chunk stands for, in the order of R174. -/
theorem lumaGreen_add_lumaRel (fgm : BitVec 6) (f : BitVec 4) :
    lumaGreen fgm + lumaRel f = (fgm.toNat : Int) - 32 + f.toNat - 8 := (add_sub_assoc _ _ _).symm

/-- LUMA's Pixel as R174 writes it. -/
theorem lumaPixel_eq (prev : Pixel) (fgm : BitVec 6) (frg fbg : BitVec 4) :
    lumaPixel prev fgm frg fbg = movePixel prev ((fgm.toNat : Int) - 32 + frg.toNat - 8) ((fgm.toNat : Int) - 32)
      ((fgm.toNat : Int) - 32 + fbg.toNat - 8) := by
  rw [lumaPixel, lumaGreen_add_lumaRel, lumaGreen_add_lumaRel]
  rfl

/-- Settles O20: LUMA is a `chunkStep` of two bytes, whose Pixel is `lumaPixel_eq`. -/
theorem lumaChunk : Obligations.LumaChunk := by
  intro fgm frg fbg s hb hp
  obtain ⟨hnext, hshort⟩ := chunkStep_enabled hb hp 2 fun d => d.tail (lumaPixel d.hist.prev fgm frg fbg) 2
  refine ⟨rfl, fun hl => ?_, hshort⟩
  rw [exec_luma, hnext hl, lumaPixel_eq]
  rfl

/-! #### RUN -/

/-- Byte `k` of copy `j`, of `m` copies one after the other, is byte `k`. -/
theorem getElem?_flatten_replicate {α : Type} (l : List α) {m j k : Nat} (hj : j < m) (hk : k < l.length) :
    (List.replicate m l).flatten[j * l.length + k]? = l[k]? := by
  induction j generalizing m with
  | zero =>
    obtain ⟨m, rfl⟩ : ∃ n, m = n + 1 := ⟨m - 1, by omega⟩
    rw [List.replicate_succ, List.flatten_cons, Nat.zero_mul, Nat.zero_add, List.getElem?_append_left hk]
  | succ j ih =>
    obtain ⟨m, rfl⟩ : ∃ n, m = n + 1 := ⟨m - 1, by omega⟩
    have hidx : (j + 1) * l.length + k = l.length + (j * l.length + k) := by rw [Nat.succ_mul]; omega
    rw [List.replicate_succ, List.flatten_cons, hidx, List.getElem?_append_right (Nat.le_add_right _ _),
      Nat.add_sub_cancel_left, ih (by omega)]

/-- The bytes of `m` copies of a Pixel, written from pixel `i` on, read back at every one of them (R51, R55). -/
theorem read_copies (mem : Memory) (i m : Nat) (c : Byte) (p : Pixel) {j k : Nat} (hj : j < m) (hk : k < pixelSize c) :
    Memory.read (Memory.writeBytes mem (i * pixelSize c) (List.replicate m (pixelBytes c p)).flatten)
      ((i + j) * pixelSize c + k) = (pixelBytes c p)[k]? := by
  have hin : j * pixelSize c + k < m * pixelSize c :=
    calc j * pixelSize c + k
      _ < j * pixelSize c + pixelSize c := Nat.add_lt_add_left hk _
      _ = (j + 1) * pixelSize c := (Nat.succ_mul _ _).symm
      _ ≤ m * pixelSize c := Nat.mul_le_mul_right _ hj
  have hcopy := getElem?_flatten_replicate (pixelBytes c p) hj (k := k) (by rwa [pixelBytes_length])
  rw [pixelBytes_length] at hcopy
  rw [Nat.add_mul, Nat.add_assoc, read_writeBytes_inside _ _ _ _ (by rwa [flatten_replicate_length]), hcopy]

/-- Settles O21: RUN is a `chunkStep` of one byte whose copies are one write of all their bytes. -/
theorem runChunk : Obligations.RunChunk := by
  intro frun s hb hp
  obtain ⟨hnext, hshort⟩ := chunkStep_enabled hb hp 1 fun d =>
    (d.pixWriteRun d.pos d.hist.prev (runPixels frun d)).advance (runPixels frun d) 1
  refine ⟨rfl, fun hl => ⟨Memory.writeBytes s.dec.pix (s.dec.pos * pixelSize s.dec.channels)
    (List.replicate (runPixels frun s.dec) (pixelBytes s.dec.channels s.dec.hist.prev)).flatten, ?_, ?_, ?_⟩, hshort⟩
  · rw [exec_run, hnext hl, pixWriteRun_eq]
    rfl
  · exact fun j k hj hk => read_copies _ _ _ _ _ hj hk
  · intro a ha
    rw [Nat.add_mul] at ha
    exact read_writeBytes_outside _ _ _ _ (by rwa [flatten_replicate_length])

end Sys2Proof.Machine
end

/-! ### The framing items, on instructions and on bytes -/

section
namespace Sys2Proof.Machine

/-- Settles O24: the registers are those `Dec.begin` sets. -/
theorem headerBeginsDecode : Obligations.HeaderBeginsDecode := fun _ _ _ cs _ hp hl hw hh hc =>
  ⟨[], exec_header_begin cs hp hl hw hh hc⟩

/-- Settles O25: the length is checked first, then the sizes and the channel count. -/
theorem headerChecks : Obligations.HeaderChecks := fun _ _ _ cs _ hp =>
  ⟨exec_header_short cs hp, fun hl hbad => exec_header_invalid cs hp hl (by rwa [not_or])⟩

/-- Settles O27: END passes both of its tests. -/
theorem endMarkerFinishes : Obligations.EndMarkerFinishes := fun _ hb hp hl => exec_endMarker_done hb hp hl

/-- Settles O28: a fetch of eight bytes is END exactly when they are the marker, and fails otherwise. -/
theorem finishChecksMarker : Obligations.FinishChecksMarker := by
  intro s bytes hb hp
  refine ⟨fun hl => decStep_failed hb ((fetch_end hp).trans (fetchEnd_short hl)), fun hl hr => ?_⟩
  have hdec := decodeEnd_eight ((readBytes_ok_iff _ _ _ _).1 hr).1
  refine ⟨fun hne => ?_, fun heq => ?_⟩
  · exact decStep_failed hb ((fetch_end hp).trans (fetchEnd_error hl hr (hdec.trans (if_neg hne))))
  · rw [decStep_instr hb ((fetch_end hp).trans (fetchEnd_ok hl hr (hdec.trans (if_pos heq))))]
    exact exec_endMarker_done hb hp hl

/-- Settles O29: the first test of each meaning. -/
theorem notEnabledStops : Obligations.NotEnabledStops := by
  refine ⟨fun i s hi h => ?_, fun s h => if_neg h, fun w h c cs s hb => if_pos hb⟩
  obtain ⟨f, hf, -⟩ := exec_chunk i hi
  rw [hf, chunkStep_fault _ f s h]

section
variable {s : State} {n : Nat} {rest : List DecMove} (hp : s.dec.phase ≠ .busy) (hh : s.dec.host = .start n :: rest)
include hp hh

/-- DEC.START on a stream too short for a header (R161). -/
theorem decStep_start_short (hn : n < 14) :
    decStep s = .next (raise .dec .truncatedInput (s.withDec (s.dec.latch n rest))) := by
  rw [decStep_start hp hh, fetchHeader_short (show (s.dec.latch n rest).inlen < 14 from hn)]
  rfl

variable (hn : 14 ≤ n) {bytes : List Byte} (hr : Memory.readBytes s.dec.str 0 14 = .ok bytes)
include hn hr

/-- DEC.START on a wrong magic (R162). -/
theorem decStep_start_badMagic (hm : bytes.take 4 ≠ Config.magic) :
    decStep s = .next (raise .dec .invalidHeader (s.withDec (s.dec.latch n rest))) := by
  have hlen := ((readBytes_ok_iff _ _ _ _).1 hr).1
  rw [decStep_start hp hh, fetchHeader_error (d := s.dec.latch n rest) hn hr (decodeHeader_badMagic hlen hm)]
  rfl

/-- DEC.START executes the header that the 14 bytes decode to (R160). -/
theorem decStep_start_instr {i : Instr} {tail : List Byte} (hd : decode .start bytes = .ok (i, tail)) :
    decStep s = exec i (s.withDec (s.dec.latch n rest)) := by
  rw [decStep_start hp hh, fetchHeader_ok (d := s.dec.latch n rest) hn hr hd]
  rfl

end

/-- Settles O26: fourteen bytes with the magic are the encoding of a header, whose size is zero exactly when its four
bytes are. -/
theorem decStartValidates : Obligations.DecStartValidates := by
  refine fun s n rest m w h c cs hp hh => ⟨decStep_start_short hp hh, fun hn hm hw hht hr => ?_⟩
  obtain ⟨w, rfl⟩ := exists_be32 hw
  obtain ⟨h, rfl⟩ := exists_be32 hht
  have hdec := decodeHeader_fields w h c cs [] hm
  rw [List.append_nil] at hdec
  have hexec (hmagic : m = Config.magic) : decStep s = exec (.header w h c cs) (s.withDec (s.dec.latch n rest)) :=
    decStep_start_instr hp hh hn hr (hdec.trans (if_pos hmagic))
  simp only [ne_eq, be32_eq_zero_iff]
  refine ⟨fun hbad => ?_, fun hmagic hw0 hh0 hc => ?_⟩
  · by_cases hmagic : m = Config.magic
    · rw [hexec hmagic]
      exact exec_header_invalid cs hp hn (by rw [not_or]; exact hbad.resolve_left (not_not.2 hmagic))
    · exact decStep_start_badMagic hp hh hn hr (by simpa [hm] using hmagic)
  · rw [hexec hmagic]
    exact ⟨_, exec_header_begin cs hp hn hw0 hh0 hc, rfl, rfl, rfl⟩

end Sys2Proof.Machine
end

/-! ### The block's step runs what was decoded, and where it stops -/

section
namespace Sys2Proof.Machine

/-- Settles O32: the bytes at `pc` are fetched as the chunk they decode to. -/
theorem stepRunsDecodedChunk : Obligations.StepRunsDecodedChunk := by
  intro s i bytes hm hb hp hl hr hd
  rw [step_dec hm, decStep_instr hb ((fetch_chunk hp).trans (fetchChunk_ok hl hr hd))]

/-- Settles O33: the first 14 bytes are fetched as the header they decode to. -/
theorem stepRunsDecodedHeader : Obligations.StepRunsDecodedHeader := by
  intro s i n rest bytes hm hp hh hn hr hd
  rw [step_dec hm, decStep_start_instr hp hh hn hr hd]
  rfl

/-- Settles O34: the eight bytes at `pc` are fetched as the marker. -/
theorem stepRunsEndMarker : Obligations.StepRunsEndMarker := by
  intro s bytes hm hb hp hl hr hd
  rw [step_dec hm, decStep_instr hb ((fetch_end hp).trans (fetchEnd_ok hl hr hd))]

/-- The outcomes `step` can have: a next state, or a stop at a byte of an input space that nothing has written. -/
inductive NextOrUnwritten : Host.Outcome State Fault Refusal → Prop where
  | next (s : State) : NextOrUnwritten (.next s)
  | encPix (a : Nat) : NextOrUnwritten (.fault (.unwrittenByte .encPix a))
  | decStr (a : Nat) : NextOrUnwritten (.fault (.unwrittenByte .decStr a))

/-- HEADER always has a next state outside BUSY (R161 to R163). -/
theorem exec_header_total {i : Instr} {s : State} (hi : i.place = .start) (hp : s.dec.phase ≠ .busy) :
    ∃ t, exec i s = .next t := by
  cases i with
  | header w h c cs =>
    rw [exec_header, execHeader, if_neg hp]
    split_ifs <;> exact ⟨_, rfl⟩
  | _ => cases hi

/-- Running what was fetched stops at an unwritten byte only, when a fetched instruction has a next state. -/
theorem runFetched_nextOrUnwritten {f : Fetched} {s : State} (h : ∀ i, f = .instr i → ∃ t, exec i s = .next t) :
    NextOrUnwritten (runFetched f s) := by
  cases f with
  | instr i =>
    obtain ⟨t, ht⟩ := h i rfl
    rw [runFetched, ht]
    exact .next t
  | failed e => exact .next _
  | unwritten a => exact .decStr a

theorem decHostMove_nextOrUnwritten {s : State} (hp : s.dec.phase ≠ .busy) : NextOrUnwritten (decHostMove s) := by
  unfold decHostMove
  split
  · exact .next _
  · exact .next _
  · exact runFetched_nextOrUnwritten fun i hf => exec_header_total (fetchHeader_place hf) hp

theorem decStep_nextOrUnwritten {s : State} (he : decEnabled s = true) : NextOrUnwritten (decStep s) := by
  by_cases hb : s.dec.phase = .busy
  · rw [decStep_busy hb]
    exact runFetched_nextOrUnwritten fun i hf => exec_fetched_total hb ((decEnabled_busy_iff hb).1 he) hf
  · rw [decStep_rest hb]
    exact decHostMove_nextOrUnwritten hb

theorem encStart_nextOrUnwritten {s : State} (hp : s.enc.phase ≠ .busy) (w h : BitVec 32) (c cs : Byte) (n : Nat) :
    NextOrUnwritten (encStart w h c cs n s) := by
  rw [encStart, if_neg hp]
  split <;> exact .next _

theorem encStep_nextOrUnwritten {s : State} (he : encEnabled s = true) : NextOrUnwritten (encStep s) := by
  by_cases hb : s.enc.phase = .busy
  · have hle : s.enc.pos ≤ s.enc.npix := by simpa only [encEnabled, hb, decide_eq_true_eq] using he
    rw [encStep_busy hb]
    split
    · rename_i hl
      rw [encPixel, if_pos ⟨hb, hl⟩]
      split
      · exact .encPix _
      · exact .next _
    · rw [encFinish_next hb (by omega)]
      exact .next _
  · rw [encStep_rest hb, encHostMove]
    split
    · exact .next _
    · exact .next _
    · apply encStart_nextOrUnwritten
      exact hb

/-- A step of the block is an enabled step of an agent, or none. -/
theorem step_nextOrUnwritten (s : State) : NextOrUnwritten (step s) := by
  cases hm : mover s with
  | none =>
    rw [step, hm]
    exact .next s
  | some a =>
    have hen := mover_enabled hm
    have hagent : NextOrUnwritten (agentStep a s) := by
      cases a with
      | enc => exact encStep_nextOrUnwritten hen
      | dec => exact decStep_nextOrUnwritten hen
    rw [step_of_mover hm]
    generalize agentStep a s = o at hagent
    cases hagent with
    | next t => exact .next _
    | encPix x => exact .encPix x
    | decStr x => exact .decStr x

/-- Settles O36: none of the outcomes a step can have is a refusal or another fault. -/
theorem stepStopsOnlyAtUnwrittenBytes : Obligations.StepStopsOnlyAtUnwrittenBytes := by
  intro s
  have h := step_nextOrUnwritten s
  refine ⟨fun r hr => ?_, fun f hf => ?_⟩
  · rw [hr] at h
    cases h
  · rw [hf] at h
    cases h with
    | encPix a => exact ⟨a, .inl rfl⟩
    | decStr a => exact ⟨a, .inr rfl⟩

end Sys2Proof.Machine
end

/-! ### Leaving IDLE, DONE and ERROR, and raising -/

section
namespace Sys2Proof.Machine

/-- An encoder that is not BUSY changes its phase by ENC.START only: at rest it otherwise waits or loads (R202, R33). -/
theorem encDoes_leaves_rest {e e' : Enc} (h : EncDoes e e') (hb : e.phase ≠ .busy) (hne : e'.phase ≠ e.phase) :
    ∃ w ht c cs n rest, e.host = .start w ht c cs n :: rest := by
  cases h with
  | wait => exact absurd rfl hne
  | load => exact absurd rfl hne
  | refuse w ht c cs n rest _ _ hh => exact ⟨w, ht, c, cs, n, rest, hh⟩
  | begin w ht c cs n rest _ hh => exact ⟨w, ht, c, cs, n, rest, hh⟩
  | pixel _ hp => exact absurd hp hb
  | finish hp => exact absurd hp hb

/-- A decoder that is not BUSY changes its phase by DEC.START only: at rest it otherwise waits or loads (R202, R33). -/
theorem decDoes_leaves_rest {d d' : Dec} (h : DecDoes d d') (hb : d.phase ≠ .busy) (hne : d'.phase ≠ d.phase) :
    ∃ n rest, d.host = .start n :: rest := by
  cases h with
  | wait => exact absurd rfl hne
  | load => exact absurd rfl hne
  | refuse n rest _ _ hh => exact ⟨n, rest, hh⟩
  | begin n rest _ _ _ _ _ hh => exact ⟨n, rest, hh⟩
  | fail hp => exact absurd hp hb
  | chunk _ _ hp => exact absurd hp hb
  | finish hp => exact absurd hp hb

/-- Settles O31: the agent that moves leaves rest by a START of its own, and the other agent keeps its phase. -/
theorem onlyStartLeavesRest : Obligations.OnlyStartLeavesRest := by
  intro s t h
  rcases step_cases h with ⟨-, rfl⟩ | ⟨-, e', he, rfl⟩ | ⟨-, d', hd, rfl⟩
  · exact ⟨fun _ hne => absurd rfl hne, fun _ hne => absurd rfl hne⟩
  · exact ⟨encDoes_leaves_rest he, fun _ hne => absurd rfl hne⟩
  · exact ⟨fun _ hne => absurd rfl hne, decDoes_leaves_rest hd⟩

/-- Settles O30: `raise` replaces one agent by its `failed` state, which keeps the input space and the host's moves. -/
theorem raiseSetsPhaseAndErr : Obligations.RaiseSetsPhaseAndErr := by
  intro r s
  constructor
  · simp only [raise_enc, withEnc_enc, withEnc_dec, enc_failed_phase, enc_failed_err, enc_failed_pix, enc_failed_host,
      and_self]
  · simp only [raise_dec, withDec_dec, withDec_enc, dec_failed_phase, dec_failed_err, dec_failed_str, dec_failed_host,
      and_self]

end Sys2Proof.Machine
end

/-! ## 70_reset_and_hazards.md: hardware reset, and what START forgets -/

/-! ### After hardware reset -/

section
namespace Sys2Proof.Machine

/-- Settles O40: `Enc.atReset` and `Dec.atReset` write these four registers out. -/
theorem resetIsIdle : Obligations.ResetIsIdle := ⟨rfl, rfl, rfl, rfl⟩

end Sys2Proof.Machine
end

/-! ### START forgets earlier operations

What START makes of an agent is a function of the agent's input space, the host's moves, START's own arguments and the
model's free-value counter. So the START of one agent is the START of any other that agrees on these, put into the
first one's state. -/

section
namespace Sys2Proof.Machine

/-! #### The decoder -/

/-- Two decoders with the same input: all that DEC.START can still see of a decoder, its argument latched (R231). -/
structure Dec.SameInput (d d' : Dec) : Prop where
  str : d'.str = d.str
  inlen : d'.inlen = d.inlen
  host : d'.host = d.host
  free : d'.free = d.free

section
variable {d d' : Dec} (hd : d.SameInput d')
include hd

/-- After a raise a decoder holds its input and free values only (R201). -/
theorem Dec.SameInput.failed_eq (r : Err) : d'.failed r = d.failed r := by
  simp only [Dec.failed, hd.str, hd.host, hd.free]

/-- A decode that begins overwrites everything but the input (R163, R231). -/
theorem Dec.SameInput.begin_eq (w h : BitVec 32) (c cs : Byte) : d'.begin w h c cs = d.begin w h c cs := by
  simp only [Dec.begin, hd.str, hd.inlen, hd.host, hd.free]

/-- The header is fetched from the input. -/
theorem Dec.SameInput.fetchHeader_eq : fetchHeader d' = fetchHeader d := by
  simp only [fetchHeader, fetchAt, hd.str, hd.inlen]

end

section
variable {s t : State} (hs : s.dec.phase ≠ .busy) (ht : t.dec.phase ≠ .busy) (hd : s.dec.SameInput t.dec)
include hd

theorem raise_dec_of_sameInput (r : Err) : raise .dec r t = t.withDec (raise .dec r s).dec :=
  congrArg t.withDec (hd.failed_eq r)

include hs ht

/-- HEADER's checks and both of its effects are the same on decoders with the same input (R161 to R163). -/
theorem execHeader_of_sameInput (w h : BitVec 32) (c cs : Byte) :
    execHeader w h c cs t = onNext (fun u => t.withDec u.dec) (execHeader w h c cs s) := by
  simp only [execHeader, if_neg hs, if_neg ht, onNext_ite, hd.inlen, hd.begin_eq, raise_dec_of_sameInput hd]
  rfl

/-- What a header's fetch gives is run alike on decoders with the same input. -/
theorem runFetched_of_sameInput {f : Fetched} (hf : ∀ i, f = .instr i → i.place = .start) :
    runFetched f t = onNext (fun u => t.withDec u.dec) (runFetched f s) := by
  cases f with
  | instr i =>
    cases i with
    | header w h c cs => exact execHeader_of_sameInput hs ht hd w h c cs
    | _ => cases hf _ rfl
  | failed e => exact congrArg Host.Outcome.next (raise_dec_of_sameInput hd (decodeFailure e))
  | unwritten a => rfl

end

/-- The START of a decoder at rest, from that of another with the same stream, moves and counter (R231). -/
theorem decStep_start_of_agree {s t : State} {n : Nat} {rest : List DecMove} (hs : s.dec.phase ≠ .busy)
    (ht : t.dec.phase ≠ .busy) (hh : s.dec.host = .start n :: rest) (hhost : t.dec.host = s.dec.host)
    (hstr : t.dec.str = s.dec.str) (hfree : t.dec.free = s.dec.free) :
    decStep t = onNext (fun u => t.withDec u.dec) (decStep s) := by
  have hin : (s.dec.latch n rest).SameInput (t.dec.latch n rest) := ⟨hstr, rfl, rfl, hfree⟩
  rw [decStep_start hs hh, decStep_start ht (hhost.trans hh), hin.fetchHeader_eq]
  exact runFetched_of_sameInput (s := s.withDec (s.dec.latch n rest)) (t := t.withDec (t.dec.latch n rest)) hs ht hin
    fun _ => fetchHeader_place

/-! #### The encoder -/

/-- Two encoders with the same input: all that ENC.START can see of an encoder besides its arguments (R231). -/
structure Enc.SameInput (e e' : Enc) : Prop where
  pix : e'.pix = e.pix
  host : e'.host = e.host
  free : e'.free = e.free

section
variable {e e' : Enc} (he : e.SameInput e')
include he

/-- After a raise an encoder holds its input and free values only (R201). -/
theorem Enc.SameInput.failed_eq (r : Err) : e'.failed r = e.failed r := by
  simp only [Enc.failed, he.pix, he.host, he.free]

/-- An encode that begins overwrites everything but the input (R132, R231). -/
theorem Enc.SameInput.begin_eq (w h : BitVec 32) (c cs : Byte) (n : Nat) :
    e'.begin w h c cs n = e.begin w h c cs n := by
  simp only [Enc.begin, he.pix, he.host, he.free]

end

/-- ENC.START's checks look at its arguments only, and both of its effects are the same on encoders with the same input
(R131, R132). -/
theorem encStart_of_sameInput {s t : State} (hs : s.enc.phase ≠ .busy) (ht : t.enc.phase ≠ .busy)
    (he : s.enc.SameInput t.enc) (w h : BitVec 32) (c cs : Byte) (n : Nat) :
    encStart w h c cs n t = onNext (fun u => t.withEnc u.enc) (encStart w h c cs n s) := by
  by_cases hr : encStartError w h c n = .none
  · rw [encStart_begin cs hs hr, encStart_begin cs ht hr, he.begin_eq]
    rfl
  · rw [encStart_raise cs hs rfl hr, encStart_raise cs ht rfl hr, raise_enc, he.failed_eq]
    rfl

/-- The START of an encoder at rest, from that of another with the same buffer, moves and counter (R231). -/
theorem encStep_start_of_agree {s t : State} {w h : BitVec 32} {c cs : Byte} {n : Nat} {rest : List EncMove}
    (hs : s.enc.phase ≠ .busy) (ht : t.enc.phase ≠ .busy) (hh : s.enc.host = .start w h c cs n :: rest)
    (hhost : t.enc.host = s.enc.host) (hpix : t.enc.pix = s.enc.pix) (hfree : t.enc.free = s.enc.free) :
    encStep t = onNext (fun u => t.withEnc u.enc) (encStep s) := by
  have hin : (s.enc.taken rest).SameInput (t.enc.taken rest) := ⟨hpix, rfl, hfree⟩
  rw [encStep_rest hs, encStep_rest ht, encHostMove_start hh, encHostMove_start (hhost.trans hh)]
  exact encStart_of_sameInput (s := s.withEnc (s.enc.taken rest)) (t := t.withEnc (t.enc.taken rest)) hs ht hin
    w h c cs n

/-- Settles O43: either agent's START is the other run's START with the agent it makes put into this state. -/
theorem startForgetsEarlierOperations : Obligations.StartForgetsEarlierOperations := by
  refine ⟨fun s t s' n rest hs ht hh hhost hstr hfree hstep => ⟨t.withDec s'.dec, ?_, rfl⟩,
    fun s t s' w h c cs n rest hs ht hh hhost hpix hfree hstep => ⟨t.withEnc s'.enc, ?_, rfl⟩⟩
  · rw [decStep_start_of_agree hs ht hh hhost hstr hfree, hstep]
    rfl
  · rw [encStep_start_of_agree hs ht hh hhost hpix hfree, hstep]
    rfl

end Sys2Proof.Machine
end
